-- ==== Sys2Proof/Word.lean ====
section
/-!
DEFINITION. The 16-bit word of CORE (R6, R8) and the byte the memory list is made of.
-/

namespace Sys2Proof

/-- A register, the PC, an address, a memory cell, an instruction: 16 bits, bit 15 the most significant (R6, R8). -/
abbrev Word := BitVec 16

/-- One listed cell's contents. The machine itself has no bytes (R53): a memory word is held as two of these (log 1). -/
abbrev Byte := BitVec 8

/-- A general register's number, 0 to 7. Every value of the 3-bit field names a register (R21). -/
abbrev RegNum := Fin 8

/-- R7, the one register with a role fixed by the hardware: the link register of JSR and JSRR (R22). -/
abbrev linkReg : RegNum := 7

end Sys2Proof
end

