-- ==== Sys2Proof/Syntax.lean ====
section
/-!
DEFINITION. The instructions of CORE: one constructor per row of `opcode_table.json` (R83, R88). Immediates and offsets are
the raw unsigned fields of the instruction word, and the instruction rules sign-extend them (R84, R113). Bits the hardware
ignores (R91) are no part of an instruction. RET is `jmp 7` (R96, R161), NOP is a `br` with no condition bit (R92, R96),
HALT is a `trap` (R96).
-/

namespace Sys2Proof

/-- An instruction of CORE (R83). -/
inductive Instr where
  /-- BR (R160): `0000nzpooooooooo`. -/
  | br (n z p : Bool) (off9 : BitVec 9)
  /-- ADD, register form (R130): `0001dddsss0--ttt`. -/
  | addReg (dr sr1 sr2 : RegNum)
  /-- ADD, immediate form (R131): `0001dddsss1iiiii`. -/
  | addImm (dr sr1 : RegNum) (imm5 : BitVec 5)
  /-- LD (R140): `0010dddooooooooo`. -/
  | ld (dr : RegNum) (off9 : BitVec 9)
  /-- ST (R144): `0011sssooooooooo`. -/
  | st (sr : RegNum) (off9 : BitVec 9)
  /-- JSRR (R163): `01000--bbb------`. -/
  | jsrr (baseR : RegNum)
  /-- JSR (R162): `01001ooooooooooo`. -/
  | jsr (off11 : BitVec 11)
  /-- AND, register form (R132): `0101dddsss0--ttt`. -/
  | andReg (dr sr1 sr2 : RegNum)
  /-- AND, immediate form (R133): `0101dddsss1iiiii`. -/
  | andImm (dr sr1 : RegNum) (imm5 : BitVec 5)
  /-- LDR (R142): `0110dddbbboooooo`. -/
  | ldr (dr baseR : RegNum) (off6 : BitVec 6)
  /-- STR (R146): `0111sssbbboooooo`. -/
  | str (sr baseR : RegNum) (off6 : BitVec 6)
  /-- RTI (R170): `1000------------`. -/
  | rti
  /-- NOT (R134): `1001dddsss------`; the source is bits 8:6 (R85, D7; log 10). -/
  | not (dr sr : RegNum)
  /-- LDI (R141): `1010dddooooooooo`. -/
  | ldi (dr : RegNum) (off9 : BitVec 9)
  /-- STI (R145): `1011sssooooooooo`. -/
  | sti (sr : RegNum) (off9 : BitVec 9)
  /-- JMP and RET (R161): `1100---bbb------`. -/
  | jmp (baseR : RegNum)
  /-- The reserved opcode 0xD (R90, R172): `1101------------`. It decodes, then faults when dispatched (R89). The fault
  carries the whole instruction word (R202), so the twelve low bits are kept. -/
  | reservedD (low12 : BitVec 12)
  /-- LEA (R143): `1110dddooooooooo`. -/
  | lea (dr : RegNum) (off9 : BitVec 9)
  /-- TRAP (R171): `1111----vvvvvvvv`; the vector is extracted and never used. -/
  | trap (trapvect8 : BitVec 8)
  deriving DecidableEq, Repr

end Sys2Proof
end

