-- ==== Sys2Proof/WellFormed.lean ====
section
/-!
DEFINITION. Which instructions are well formed, and which operands written as signed numbers fit their fields (R84, R97).
An `Instr` holds register numbers and raw fields of exactly the widths of R81, so nothing ill formed can be built: "every
number a field can hold names a register: there is no invalid register number" (R21) and "No value of them is illegal"
(R91). What can be ill formed is an instruction as it is WRITTEN, with signed decimal operands (R95): `Asm` holds those, and
`Asm.wellFormed` is the range check of R97.
-/

namespace Sys2Proof

/-- The register numbers an instruction names. -/
def Instr.registers : Instr → List Nat
  | .br _ _ _ _ => []
  | .addReg dr sr1 sr2 => [dr, sr1, sr2]
  | .addImm dr sr1 _ => [dr, sr1]
  | .ld dr _ => [dr]
  | .st sr _ => [sr]
  | .jsrr b => [b]
  | .jsr _ => []
  | .andReg dr sr1 sr2 => [dr, sr1, sr2]
  | .andImm dr sr1 _ => [dr, sr1]
  | .ldr dr b _ => [dr, b]
  | .str sr b _ => [sr, b]
  | .rti => []
  | .not dr sr => [dr, sr]
  | .ldi dr _ => [dr]
  | .sti sr _ => [sr]
  | .jmp b => [b]
  | .reservedD _ => []
  | .lea dr _ => [dr]
  | .trap _ => []

/-- Every register number is below `NREGS` (R6, R21). The types make this true of every instruction. -/
def Instr.wellFormed (i : Instr) : Bool := i.registers.all (· < 8)

/-- R97: a signed value v fits an N-bit field when -2^(N-1) <= v <= 2^(N-1) - 1. -/
def signedFits (n : Nat) (v : Int) : Bool := -(2 ^ (n - 1) : Int) ≤ v && v ≤ (2 ^ (n - 1) : Int) - 1

/-- An instruction or data word as the spec's examples write it (R95, R96; log 20): offsets and immediates are signed
numbers. -/
inductive Asm where
  | addReg (dr sr1 sr2 : RegNum)
  | addImm (dr sr1 : RegNum) (imm5 : Int)
  | andReg (dr sr1 sr2 : RegNum)
  | andImm (dr sr1 : RegNum) (imm5 : Int)
  | not (dr sr : RegNum)
  /-- `BRn` to `BRnzp`: the named condition bits. -/
  | br (n z p : Bool) (off9 : Int)
  | jmp (baseR : RegNum)
  | jsr (off11 : Int)
  | jsrr (baseR : RegNum)
  | ld (dr : RegNum) (off9 : Int)
  | ldi (dr : RegNum) (off9 : Int)
  | lea (dr : RegNum) (off9 : Int)
  | ldr (dr baseR : RegNum) (off6 : Int)
  | st (sr : RegNum) (off9 : Int)
  | sti (sr : RegNum) (off9 : Int)
  | str (sr baseR : RegNum) (off6 : Int)
  | rti
  /-- `TRAP xVV`. -/
  | trap (vector : Nat)
  /-- `RET` (R96). -/
  | ret
  /-- `HALT` (R96). -/
  | halt
  /-- `NOP` (R96). -/
  | nop
  /-- `.FILL xNNNN`, a data word (R96). -/
  | fill (value : Nat)
  deriving DecidableEq, Repr

/-- The operands fit their fields (R84, R97). A written BR names at least one condition bit (R95: the seven spellings
`BRn` to `BRnzp`); a branch with none is spelled NOP (R96). -/
def Asm.wellFormed : Asm → Bool
  | .addReg _ _ _ => true
  | .addImm _ _ imm => signedFits 5 imm
  | .andReg _ _ _ => true
  | .andImm _ _ imm => signedFits 5 imm
  | .not _ _ => true
  | .br n z p off => (n || z || p) && signedFits 9 off
  | .jmp _ => true
  | .jsr off => signedFits 11 off
  | .jsrr _ => true
  | .ld _ off => signedFits 9 off
  | .ldi _ off => signedFits 9 off
  | .lea _ off => signedFits 9 off
  | .ldr _ _ off => signedFits 6 off
  | .st _ off => signedFits 9 off
  | .sti _ off => signedFits 9 off
  | .str _ _ off => signedFits 6 off
  | .rti => true
  | .trap v => decide (v < 256)
  | .ret => true
  | .halt => true
  | .nop => true
  | .fill v => decide (v < 65536)

end Sys2Proof
end

