-- ==== Sys2Proof/Decode.lean ====
section
/-!
DEFINITION. The instruction decoder (R81, R113), the 16-way dispatch on the opcode (R87, R114), the opcode table as data
(R83, R88), and the encoder. Decoding is total: "The decoder validates nothing and cannot fail" (R113), every word matches
exactly one row (R89), and the reserved opcode decodes to a constructor of its own, `reservedD`, which names it.
-/

namespace Sys2Proof

/-- `w[lo + n - 1 : lo]`, the n-bit slice of a word that starts at bit lo (R8). -/
def slice (w : Word) (lo n : Nat) : BitVec n := w.extractLsb' lo n

/-- The register number in a 3-bit field (R21). -/
def regOfField (f : BitVec 3) : RegNum := f.toFin

/-- The 3-bit field that holds a register number. -/
def fieldOfReg (r : RegNum) : BitVec 3 := BitVec.ofFin r

/-- The fields the decoder extracts, "All fields are computed unconditionally; the executor selects which are meaningful per
opcode" (R81, R113). -/
structure Fields where
  opcode : BitVec 4
  dr : BitVec 3
  sr1 : BitVec 3
  sr2 : BitVec 3
  imm5 : BitVec 5
  immflag : Bool
  pcoffset9 : BitVec 9
  pcoffset11 : BitVec 11
  offset6 : BitVec 6
  n : Bool
  z : Bool
  p : Bool
  jsrflag : Bool
  trapvect8 : BitVec 8
  deriving DecidableEq, Repr

/-- `decode(ir)` of R113: every field is the raw unsigned slice. -/
def decodeFields (ir : Word) : Fields where
  opcode := slice ir 12 4
  dr := slice ir 9 3
  sr1 := slice ir 6 3
  sr2 := slice ir 0 3
  imm5 := slice ir 0 5
  immflag := ir.getLsbD 5
  pcoffset9 := slice ir 0 9
  pcoffset11 := slice ir 0 11
  offset6 := slice ir 0 6
  n := ir.getLsbD 11
  z := ir.getLsbD 10
  p := ir.getLsbD 9
  jsrflag := ir.getLsbD 11
  trapvect8 := slice ir 0 8

/-- The 16 values of the opcode field (R87). -/
inductive Opcode where
  | br | add | ld | st | jsr | and | ldr | str | rti | not | ldi | sti | jmp | reserved | lea | trap
  deriving DecidableEq, Repr

/-- The opcode map of R87, from bits 15, 14, 13 and 12 of the word. -/
def opcodeOfBits : (b15 b14 b13 b12 : Bool) → Opcode
  | false, false, false, false => .br
  | false, false, false, true => .add
  | false, false, true, false => .ld
  | false, false, true, true => .st
  | false, true, false, false => .jsr
  | false, true, false, true => .and
  | false, true, true, false => .ldr
  | false, true, true, true => .str
  | true, false, false, false => .rti
  | true, false, false, true => .not
  | true, false, true, false => .ldi
  | true, false, true, true => .sti
  | true, true, false, false => .jmp
  | true, true, false, true => .reserved
  | true, true, true, false => .lea
  | true, true, true, true => .trap

/-- The opcode a 4-bit opcode field names (R87). -/
def opcodeOf (o : BitVec 4) : Opcode :=
  opcodeOfBits (o.getLsbD 3) (o.getLsbD 2) (o.getLsbD 1) (o.getLsbD 0)

/-- Bits 11:0 of the word, put together from its bit 11 and its bits 10:0, for the word `IllegalOpcode` carries (R202). -/
def lowTwelve (f : Fields) : BitVec 12 := (BitVec.ofBool f.jsrflag).setWidth 12 <<< 11 ||| f.pcoffset11.setWidth 12

/-- The dispatcher's choice (R86, R114): the opcode selects the arm, `immflag` the operand form of ADD and AND, `jsrflag`
JSR or JSRR. The arm takes the fields its rule names, at the positions of R85. -/
def selectInstr (f : Fields) : Instr :=
  match opcodeOf f.opcode with
  | .br => .br f.n f.z f.p f.pcoffset9
  | .add =>
    bif f.immflag then .addImm (regOfField f.dr) (regOfField f.sr1) f.imm5
    else .addReg (regOfField f.dr) (regOfField f.sr1) (regOfField f.sr2)
  | .ld => .ld (regOfField f.dr) f.pcoffset9
  | .st => .st (regOfField f.dr) f.pcoffset9
  | .jsr => bif f.jsrflag then .jsr f.pcoffset11 else .jsrr (regOfField f.sr1)
  | .and =>
    bif f.immflag then .andImm (regOfField f.dr) (regOfField f.sr1) f.imm5
    else .andReg (regOfField f.dr) (regOfField f.sr1) (regOfField f.sr2)
  | .ldr => .ldr (regOfField f.dr) (regOfField f.sr1) f.offset6
  | .str => .str (regOfField f.dr) (regOfField f.sr1) f.offset6
  | .rti => .rti
  | .not => .not (regOfField f.dr) (regOfField f.sr1)
  | .ldi => .ldi (regOfField f.dr) f.pcoffset9
  | .sti => .sti (regOfField f.dr) f.pcoffset9
  | .jmp => .jmp (regOfField f.sr1)
  | .reserved => .reservedD (lowTwelve f)
  | .lea => .lea (regOfField f.dr) f.pcoffset9
  | .trap => .trap f.trapvect8

/-- The instruction a word is. Total (R89). -/
def decode (ir : Word) : Instr := selectInstr (decodeFields ir)

/-- The instruction read from a row's word, in the numbering of `opcode_table.json`. Every row has 16 bits (R80); bits above
`nbits` are 0. No word is refused (R89); a width above 16 bits is no instruction of this hardware. -/
def decodeTableWord (nbits w : Nat) : Option Instr :=
  if nbits ≤ 16 then some (decode (BitVec.ofNat 16 (w % 2 ^ nbits))) else none

/-! The opcode table (R83, R88). -/

/-- One row: a word w is that row's instruction exactly when `w & mask = match` (R88). `ignored` has a 1 for each bit the
row marks `-` (R83, R91). -/
structure Row where
  mnemonic : String
  matchBits : Word
  mask : Word
  ignored : Word
  deriving DecidableEq, Repr

/-- The row of an instruction. -/
def Instr.row : Instr → Row
  | .br _ _ _ _ => ⟨"BR", 0x0000, 0xF000, 0x0000⟩
  | .addReg _ _ _ => ⟨"ADD", 0x1000, 0xF020, 0x0018⟩
  | .addImm _ _ _ => ⟨"ADD", 0x1020, 0xF020, 0x0000⟩
  | .ld _ _ => ⟨"LD", 0x2000, 0xF000, 0x0000⟩
  | .st _ _ => ⟨"ST", 0x3000, 0xF000, 0x0000⟩
  | .jsrr _ => ⟨"JSRR", 0x4000, 0xF800, 0x063F⟩
  | .jsr _ => ⟨"JSR", 0x4800, 0xF800, 0x0000⟩
  | .andReg _ _ _ => ⟨"AND", 0x5000, 0xF020, 0x0018⟩
  | .andImm _ _ _ => ⟨"AND", 0x5020, 0xF020, 0x0000⟩
  | .ldr _ _ _ => ⟨"LDR", 0x6000, 0xF000, 0x0000⟩
  | .str _ _ _ => ⟨"STR", 0x7000, 0xF000, 0x0000⟩
  | .rti => ⟨"RTI", 0x8000, 0xF000, 0x0FFF⟩
  | .not _ _ => ⟨"NOT", 0x9000, 0xF000, 0x003F⟩
  | .ldi _ _ => ⟨"LDI", 0xA000, 0xF000, 0x0000⟩
  | .sti _ _ => ⟨"STI", 0xB000, 0xF000, 0x0000⟩
  | .jmp _ => ⟨"JMP", 0xC000, 0xF000, 0x0E3F⟩
  | .reservedD _ => ⟨"RESERVED_D", 0xD000, 0xF000, 0x0FFF⟩
  | .lea _ _ => ⟨"LEA", 0xE000, 0xF000, 0x0000⟩
  | .trap _ => ⟨"TRAP", 0xF000, 0xF000, 0x0F00⟩

/-- One instruction of each row, in the table's order. -/
def rowSamples : List Instr :=
  [.br false false false 0, .addReg 0 0 0, .addImm 0 0 0, .ld 0 0, .st 0 0, .jsrr 0, .jsr 0, .andReg 0 0 0, .andImm 0 0 0,
    .ldr 0 0 0, .str 0 0 0, .rti, .not 0 0, .ldi 0 0, .sti 0 0, .jmp 0, .reservedD 0, .lea 0 0, .trap 0]

/-- The 19 rows of `opcode_table.json` (R88). -/
def opcodeTable : List Row := rowSamples.map Instr.row

/-! The encoder. -/

/-- The word whose bits lo + n - 1 down to lo are the n-bit field f, all others 0 (R82). -/
def place {n : Nat} (f : BitVec n) (lo : Nat) : Word := f.setWidth 16 <<< lo

/-- The word of an instruction: the patterns of R83, with the canonical value in every ignored bit, 0 but for NOT's bits
5:0 = 111111 (R91; log 19). -/
def encode : Instr → Word
  | .br n z p off =>
    0x0000#16 ||| place (BitVec.ofBool n) 11 ||| place (BitVec.ofBool z) 10 ||| place (BitVec.ofBool p) 9 ||| place off 0
  | .addReg dr sr1 sr2 =>
    0x1000#16 ||| place (fieldOfReg dr) 9 ||| place (fieldOfReg sr1) 6 ||| place (fieldOfReg sr2) 0
  | .addImm dr sr1 imm => 0x1020#16 ||| place (fieldOfReg dr) 9 ||| place (fieldOfReg sr1) 6 ||| place imm 0
  | .ld dr off => 0x2000#16 ||| place (fieldOfReg dr) 9 ||| place off 0
  | .st sr off => 0x3000#16 ||| place (fieldOfReg sr) 9 ||| place off 0
  | .jsrr b => 0x4000#16 ||| place (fieldOfReg b) 6
  | .jsr off => 0x4800#16 ||| place off 0
  | .andReg dr sr1 sr2 =>
    0x5000#16 ||| place (fieldOfReg dr) 9 ||| place (fieldOfReg sr1) 6 ||| place (fieldOfReg sr2) 0
  | .andImm dr sr1 imm => 0x5020#16 ||| place (fieldOfReg dr) 9 ||| place (fieldOfReg sr1) 6 ||| place imm 0
  | .ldr dr b off => 0x6000#16 ||| place (fieldOfReg dr) 9 ||| place (fieldOfReg b) 6 ||| place off 0
  | .str sr b off => 0x7000#16 ||| place (fieldOfReg sr) 9 ||| place (fieldOfReg b) 6 ||| place off 0
  | .rti => 0x8000#16
  | .not dr sr => 0x903F#16 ||| place (fieldOfReg dr) 9 ||| place (fieldOfReg sr) 6
  | .ldi dr off => 0xA000#16 ||| place (fieldOfReg dr) 9 ||| place off 0
  | .sti sr off => 0xB000#16 ||| place (fieldOfReg sr) 9 ||| place off 0
  | .jmp b => 0xC000#16 ||| place (fieldOfReg b) 6
  | .reservedD low => 0xD000#16 ||| place low 0
  | .lea dr off => 0xE000#16 ||| place (fieldOfReg dr) 9 ||| place off 0
  | .trap v => 0xF000#16 ||| place v 0

/-- R97: the field that holds the signed value v is `v mod 2^N`. -/
def fieldOfInt (n : Nat) (v : Int) : BitVec n := BitVec.ofInt n v

/-- The word a written instruction stands for (R95, R96), its operands taken modulo their field's width. -/
def Asm.word : Asm → Word
  | .addReg dr sr1 sr2 => encode (.addReg dr sr1 sr2)
  | .addImm dr sr1 imm => encode (.addImm dr sr1 (fieldOfInt 5 imm))
  | .andReg dr sr1 sr2 => encode (.andReg dr sr1 sr2)
  | .andImm dr sr1 imm => encode (.andImm dr sr1 (fieldOfInt 5 imm))
  | .not dr sr => encode (.not dr sr)
  | .br n z p off => encode (.br n z p (fieldOfInt 9 off))
  | .jmp b => encode (.jmp b)
  | .jsr off => encode (.jsr (fieldOfInt 11 off))
  | .jsrr b => encode (.jsrr b)
  | .ld dr off => encode (.ld dr (fieldOfInt 9 off))
  | .ldi dr off => encode (.ldi dr (fieldOfInt 9 off))
  | .lea dr off => encode (.lea dr (fieldOfInt 9 off))
  | .ldr dr b off => encode (.ldr dr b (fieldOfInt 6 off))
  | .st sr off => encode (.st sr (fieldOfInt 9 off))
  | .sti sr off => encode (.sti sr (fieldOfInt 9 off))
  | .str sr b off => encode (.str sr b (fieldOfInt 6 off))
  | .rti => encode .rti
  | .trap v => encode (.trap (BitVec.ofNat 8 v))
  | .ret => encode (.jmp linkReg)
  | .halt => encode (.trap 0x25#8)
  | .nop => encode (.br false false false 0#9)
  | .fill v => BitVec.ofNat 16 v

/-- A written instruction's word, where its operands fit (R97). -/
def assemble (a : Asm) : Option Word := if a.wellFormed then some a.word else none

end Sys2Proof
end

