-- ==== Sys2Proof/Config.lean ====
section
/-!
DEFINITION. What is fixed for the machine: the parameters of R6, the power-on values of R34 and R230, and the one
policy the spec lets a model switch (R172, D3). The spec leaves no value open (`93_implementation_defined.md`: "Nothing in
this machine is `any value` or a draw"), so there is no free value here.
-/

namespace Sys2Proof

/-- What the reserved opcode 0xD does (R90, R172, D3): the spec's own choice is `failFast`; "A model may expose the
alternative (no-op, `pc <- apc`, counted) as a configuration switch that is off by default". -/
inductive ReservedPolicy where
  /-- Raise `IllegalOpcode(ir)` and commit nothing. -/
  | failFast
  /-- Advance the PC and commit, the other policy the document allows. -/
  | noOp
  deriving DecidableEq, Repr

namespace Config

/-- `MEM_WORDS` (R6, R50): addresses 0x0000 to 0x7FFF have a cell, 0x8000 to 0xFFFF have none (R51). -/
def memWords : Nat := 32768

/-- `HALT_PC`, the halt sentinel (R6, R57, R181). -/
def haltPc : Word := 0x0000#16

/-- What a byte cell that the memory list does not name reads as: memory is zero-initialised (R34, R230). -/
def unlistedByte : Byte := 0x00#8

/-- Power-on contents of every general register (R34, R230). -/
def resetReg : Word := 0x0000#16

/-- Power-on PC (R34, R230). There is no reset vector in memory (R34, R57). -/
def resetPc : Word := 0x0000#16

/-- Power-on N, Z and P, each 0; finalisation forces Z to 1 before the first cycle (R34, R230, R235; log 14). -/
def resetFlag : Bool := false

/-- Power-on RUN (R34, R230, D12; log 14). -/
def resetRun : Bool := false

/-- Power-on ICOUNT (R28, R34, D11; log 13). -/
def resetIcount : Nat := 0

/-- The policy for opcode 0xD. The spec's default is the fault (R172, D3; log 6). -/
def reservedPolicy : ReservedPolicy := .failFast

/-- Where `State.withFetchWord` loads a word when the PC is at no fetchable address. DESIGN CHOICE, log 16: the machine has
no default base (R7, D13); 0x3000 is the base of the spec's examples (K7). No instruction's meaning uses it. -/
def exampleBase : Word := 0x3000#16

end Config

end Sys2Proof
end

