-- ==== Sys2Proof/Machine/State.lean ====
section
/-!
DEFINITION. The state of CORE, the reasons a cycle can stop, and the power-on state. R20: "The complete state of CORE is the
record" of eight general registers, PC, N, Z, P, memory, RUN and ICOUNT. The next-state latches need not be a field (R20,
R31; log 3): a meaning computes the new state as a function of the old one.
-/

namespace Sys2Proof.Machine

/-- Memory as a list of byte cells: key 2a holds bits 7:0 and key 2a + 1 bits 15:8 of the word at address a. No instruction
selects a half of a word, so the order is unobservable (R53, D15; DESIGN CHOICE, log 1). A key that is not listed reads as
`Config.unlistedByte`. -/
abbrev Memory := List Host.Cell

/-- The one canonical form of a memory: keys strictly rising, none past the last word's cells, none listed with what an
unlisted key reads as. -/
def Memory.wf (m : Memory) : Bool :=
  decide (m.Pairwise (fun c d => c.1 < d.1)) &&
    m.all (fun c => decide (c.1 < 2 * Config.memWords) && decide (c.2 ≠ Config.unlistedByte))

/-- The kinds of access an `OutOfBounds` fault names (R51, R201, D22; log 23). -/
inductive AccessKind where
  | fetch
  | read
  | write
  deriving DecidableEq, Repr

/-- The two faults of CORE (R200). The cycle that raises one commits nothing (R203). -/
inductive Fault where
  /-- `OutOfBounds(addr, kind)` (R51, R201): raised by the fetch when `pc >= 0x8000`, by LD, LDI, LDR, STI on a read and by
  ST, STI, STR on a write at an address >= 0x8000. Safe: the machine stops where the original design is undefined (D1, D2;
  logs 4, 5). -/
  | outOfBounds (addr : Word) (kind : AccessKind)
  /-- `IllegalOpcode(ir)` (R172, R202): raised by every word of opcode 0xD, and by nothing else. Safe: the machine stops where
  the document gives the word no meaning (D3; log 6). -/
  | illegalOpcode (ir : Word)
  deriving DecidableEq, Repr

/-- The reasons to refuse an instruction. Every instruction has its meaning, so no step of this machine gives one. -/
inductive Refusal where
  /-- Raised by an arm of `exec` whose instruction has no meaning yet; there is none. Safe. -/
  | notModelled (mnemonic : String)
  deriving DecidableEq, Repr

/-- The state record of R20. -/
structure State where
  /-- The general registers R0 to R7 (R21). -/
  x : Vector Word 8
  /-- The program counter, the word address of the instruction about to be fetched (R23). -/
  pc : Word
  /-- Condition code N (R25). -/
  n : Bool
  /-- Condition code Z (R25). -/
  z : Bool
  /-- Condition code P (R25). -/
  p : Bool
  /-- The memory array M (R50). -/
  mem : Memory
  /-- The run/halt flag RUN (R27). -/
  run : Bool
  /-- The instruction counter ICOUNT (R28; log 13). -/
  icount : Nat
  deriving DecidableEq, Repr

/-- The power-on state (R34, R230): everything zero, `RUN` 0. It is not runnable: a cycle on it is `Halted` and changes
nothing. A program comes to run through `load` and `finalise` (R231; logs 14, 15). -/
def State.reset : State where
  x := Vector.replicate 8 Config.resetReg
  pc := Config.resetPc
  n := Config.resetFlag
  z := Config.resetFlag
  p := Config.resetFlag
  mem := []
  run := Config.resetRun
  icount := Config.resetIcount

end Sys2Proof.Machine
end

