-- ==== Sys2Proof/Machine/Ops.lean ====
section
/-!
DEFINITION. The shared operations over registers, PC and memory (R9), and what raising a fault does (R203). CORE has no
exception entry and no return from one: "There is no trap entry" (R208), "There is no trap return" (R209); a fault ends the
cycle with nothing committed (R203), which is `raise`.
-/

namespace Sys2Proof.Machine

/-! Registers and PC. -/

/-- `x[r]` on a right-hand side (R9, R21). -/
def State.getReg (s : State) (r : RegNum) : Word := s.x[r.val]'r.isLt

/-- `x[r] <- v` (R9, R21). No register is hard-wired (R21). -/
def State.setReg (s : State) (r : RegNum) (v : Word) : State := { s with x := s.x.set r.val v r.isLt }

/-- `pc <- t` (R9). Any 16-bit value may be written (R24). -/
def State.setPc (s : State) (t : Word) : State := { s with pc := t }

/-- `apc`, the advanced PC `to16(pc + 1)` (R9, R23, R183; log 8). -/
def State.apc (s : State) : Word := s.pc + 1#16

/-- The default next-state: current-state with `pc <- apc` (R115, R184). -/
def State.advance (s : State) : State := s.setPc s.apc

/-- Writes the memory array. -/
def State.setMem (s : State) (m : Memory) : State := { s with mem := m }

/-- Writes RUN. Only the halt check and the host's finalisation do (R27). -/
def State.setRun (s : State) (b : Bool) : State := { s with run := b }

/-- Count (R187): ICOUNT goes up by exactly one. -/
def State.countOne (s : State) : State := { s with icount := s.icount + 1 }

/-! Memory cells. -/

/-- The key of the cell that holds bits 7:0 of the word at address a (log 1). -/
def Memory.lowKey (a : Nat) : Nat := 2 * a

/-- The key of the cell that holds bits 15:8 of the word at address a (log 1). -/
def Memory.highKey (a : Nat) : Nat := 2 * a + 1

/-- Reads one cell. -/
def Memory.readByte : Memory → Nat → Byte
  | [], _ => Config.unlistedByte
  | c :: m, k => if c.1 = k then c.2 else Memory.readByte m k

/-- Puts a cell in front of a memory, unless it holds what an unlisted cell reads as. -/
def Memory.cons (k : Nat) (v : Byte) (m : Memory) : Memory := if v = Config.unlistedByte then m else (k, v) :: m

/-- Writes one cell, keeping the canonical form. -/
def Memory.writeByte : Memory → Nat → Byte → Memory
  | [], k, v => Memory.cons k v []
  | c :: m, k, v =>
    if k < c.1 then Memory.cons k v (c :: m)
    else if k = c.1 then Memory.cons k v m
    else c :: Memory.writeByte m k v

/-- `M[a]`, the word at address a (R50, R54). -/
def Memory.readWord (m : Memory) (a : Nat) : Word := m.readByte (Memory.highKey a) ++ m.readByte (Memory.lowKey a)

/-- `M[a] <- v` (R50, R54). -/
def Memory.writeWord (m : Memory) (a : Nat) (v : Word) : Memory :=
  (m.writeByte (Memory.lowKey a) (v.extractLsb' 0 8)).writeByte (Memory.highKey a) (v.extractLsb' 8 8)

/-- Whether an address selects a cell: 0x0000 to 0x7FFF do (R51, R57). -/
def inRange (a : Word) : Bool := decide (a.toNat < Config.memWords)

/-- `MemRead(a, 1)` for an access of the given kind (R9, R51): the word, or `OutOfBounds(a, kind)`. -/
def State.memRead (s : State) (kind : AccessKind) (a : Word) : Except Fault Word :=
  if inRange a then .ok (s.mem.readWord a.toNat) else .error (.outOfBounds a kind)

/-- `MemWrite(a, 1, v)` (R9, R51), writing the memory of next-state t: the state with `M[a] <- v`, or
`OutOfBounds(a, write)`. -/
def State.memWrite (t : State) (a v : Word) : Except Fault State :=
  if inRange a then .ok (t.setMem (t.mem.writeWord a.toNat v)) else .error (.outOfBounds a .write)

/-! How an instruction rule ends. -/

/-- The rule finished: next-state is ready to be committed (R115, R186). -/
def finish (t : State) : Host.Outcome State Fault Refusal := .next t

/-- `raise F(info)` (R9, R203): the cycle ends, next-state is discarded. -/
def raise (f : Fault) : Host.Outcome State Fault Refusal := .fault f

/-- Goes on with a read word, or raises the fault of the read (R58: each read is checked before it is made). -/
def withRead (r : Except Fault Word) (k : Word → Host.Outcome State Fault Refusal) : Host.Outcome State Fault Refusal :=
  match r with
  | .ok v => k v
  | .error f => raise f

/-- Ends an instruction with its one memory write, the last of its accesses (R52, R58), or raises the fault of the write. -/
def finishWrite (r : Except Fault State) : Host.Outcome State Fault Refusal :=
  match r with
  | .ok t => finish t
  | .error f => raise f

end Sys2Proof.Machine
end

