-- ==== Sys2Proof/Machine/Flags.lean ====
section
/-!
DEFINITION. The condition-code updater (R112) and the condition BR tests (R160).
-/

namespace Sys2Proof.Machine

/-- `update_flags(v)` (R112): the triple (N, Z, P). -/
def updateFlags (v : Word) : Bool × Bool × Bool :=
  if v = 0x0000#16 then (false, true, false)
  else if v.getLsbD 15 then (true, false, false)
  else (false, false, true)

/-- `setcc(v)` (R112): `(N,Z,P) <- update_flags(v)`, v the value just written to the register. -/
def State.setcc (s : State) (v : Word) : State :=
  { s with n := (updateFlags v).1, z := (updateFlags v).2.1, p := (updateFlags v).2.2 }

/-- The condition of BR (R160), bit by bit on any flags (R26, D20; log 25): `(n AND N) OR (z AND Z) OR (p AND P)`. -/
def branchTaken (s : State) (n z p : Bool) : Bool := (n && s.n) || (z && s.z) || (p && s.p)

/-- The end of ADD, AND, NOT, LD, LDI and LDR: `x[DR] <- v`, `setcc(v)`, `pc <- apc` (R112, R116, R130). -/
def State.writeResult (s : State) (dr : RegNum) (v : Word) : State := (s.advance.setReg dr v).setcc v

end Sys2Proof.Machine
end

