-- ==== Sys2Proof/Machine/Operands.lean ====
section
/-!
DEFINITION. The sign-extension unit (R110), the 16-bit modular adder (R111), and every operand form and effective address
of the instruction rules (R84, R116).
-/

namespace Sys2Proof.Machine

/-- `sext_N(v)` (R110): the signed integer an N-bit field represents in two's complement. -/
def sext {n : Nat} (v : BitVec n) : Int := if v.msb then (v.toNat : Int) - 2 ^ n else (v.toNat : Int)

/-- `to16(i)` (R9): the integer i modulo 65536. -/
def to16 (i : Int) : Word := BitVec.ofInt 16 i

/-- `add16(a, wa, b, wb)` (R111): each operand is sign-extended from its own width, the sum is taken modulo 65536. The widths
are those of the arguments. -/
def add16 {wa wb : Nat} (a : BitVec wa) (b : BitVec wb) : Word := to16 (sext a + sext b)

/-- The immediate of AND as a 16-bit pattern, `to16(sext_5(imm5))` (R84, R133). -/
def immPattern (imm5 : BitVec 5) : Word := to16 (sext imm5)

/-- The PC-relative address of LD, LDI, LEA, ST, STI and BR: `add16(apc, 16, PCoffset9, 9)` (R84, R116). -/
def pcRel9 (s : State) (off9 : BitVec 9) : Word := add16 s.apc off9

/-- The target of JSR: `add16(apc, 16, PCoffset11, 11)` (R116, R162). -/
def pcRel11 (s : State) (off11 : BitVec 11) : Word := add16 s.apc off11

/-- The base+offset address of LDR and STR: `add16(x[BaseR], 16, offset6, 6)` (R116). -/
def baseOff6 (s : State) (baseR : RegNum) (off6 : BitVec 6) : Word := add16 (s.getReg baseR) off6

end Sys2Proof.Machine
end

