-- ==== Sys2Proof/Machine/Control.lean ====
section
/-!
DEFINITION. The control transfer instructions BR, JMP/RET, JSR, JSRR (`43_control.md`, R160 to R163). None accesses memory
after the fetch, none faults, none writes a flag; any 16-bit target is written to the PC (R24).
-/

namespace Sys2Proof.Machine

/-- BR (R160): a taken branch overrides the default `pc <- apc`. -/
def execBr (n z p : Bool) (off9 : BitVec 9) (s : State) : Host.Outcome State Fault Refusal :=
  finish (if branchTaken s n z p then s.advance.setPc (pcRel9 s off9) else s.advance)

/-- JMP, and RET with BaseR = 7 (R161). -/
def execJmp (baseR : RegNum) (s : State) : Host.Outcome State Fault Refusal :=
  finish (s.advance.setPc (s.getReg baseR))

/-- JSR (R162): `x[7] <- apc`, no flag update (C2). -/
def execJsr (off11 : BitVec 11) (s : State) : Host.Outcome State Fault Refusal :=
  finish ((s.advance.setReg linkReg s.apc).setPc (pcRel11 s off11))

/-- JSRR (R163): the target is the value of BaseR at the start of the cycle, also when BaseR is R7. -/
def execJsrr (baseR : RegNum) (s : State) : Host.Outcome State Fault Refusal :=
  finish ((s.advance.setReg linkReg s.apc).setPc (s.getReg baseR))

end Sys2Proof.Machine
end

