-- ==== Sys2Proof/Machine/DataMovement.lean ====
section
/-!
DEFINITION. The data movement instructions LD, LDI, LDR, LEA, ST, STI, STR (`42_data_movement.md`, R140 to R146). Every read
is of current-state s; the one write goes to next-state (R10, R58).
-/

namespace Sys2Proof.Machine

/-- LD (R140). -/
def execLd (dr : RegNum) (off9 : BitVec 9) (s : State) : Host.Outcome State Fault Refusal :=
  withRead (s.memRead .read (pcRel9 s off9)) fun v => finish (s.writeResult dr v)

/-- LDI (R141): the word at the PC-relative address is the address of the datum (D19; log 17). -/
def execLdi (dr : RegNum) (off9 : BitVec 9) (s : State) : Host.Outcome State Fault Refusal :=
  withRead (s.memRead .read (pcRel9 s off9)) fun ptr =>
    withRead (s.memRead .read ptr) fun v => finish (s.writeResult dr v)

/-- LDR (R142). -/
def execLdr (dr baseR : RegNum) (off6 : BitVec 6) (s : State) : Host.Outcome State Fault Refusal :=
  withRead (s.memRead .read (baseOff6 s baseR off6)) fun v => finish (s.writeResult dr v)

/-- LEA (R143): the address is written to the register, memory is not read, the flags stay (C2). -/
def execLea (dr : RegNum) (off9 : BitVec 9) (s : State) : Host.Outcome State Fault Refusal :=
  finish (s.advance.setReg dr (pcRel9 s off9))

/-- ST (R144). -/
def execSt (sr : RegNum) (off9 : BitVec 9) (s : State) : Host.Outcome State Fault Refusal :=
  finishWrite (s.advance.memWrite (pcRel9 s off9) (s.getReg sr))

/-- STI (R145): the pointer is read before the write (D19; log 17). -/
def execSti (sr : RegNum) (off9 : BitVec 9) (s : State) : Host.Outcome State Fault Refusal :=
  withRead (s.memRead .read (pcRel9 s off9)) fun ptr => finishWrite (s.advance.memWrite ptr (s.getReg sr))

/-- STR (R146). -/
def execStr (sr baseR : RegNum) (off6 : BitVec 6) (s : State) : Host.Outcome State Fault Refusal :=
  finishWrite (s.advance.memWrite (baseOff6 s baseR off6) (s.getReg sr))

end Sys2Proof.Machine
end

