-- ==== Sys2Proof/Machine/Operate.lean ====
section
/-!
DEFINITION. The operate instructions ADD, AND, NOT (`41_operate.md`, R130 to R134). None can fault.
-/

namespace Sys2Proof.Machine

/-- ADD, register form (R130). -/
def execAddReg (dr sr1 sr2 : RegNum) (s : State) : Host.Outcome State Fault Refusal :=
  finish (s.writeResult dr (add16 (s.getReg sr1) (s.getReg sr2)))

/-- ADD, immediate form (R131). -/
def execAddImm (dr sr1 : RegNum) (imm5 : BitVec 5) (s : State) : Host.Outcome State Fault Refusal :=
  finish (s.writeResult dr (add16 (s.getReg sr1) imm5))

/-- AND, register form (R132). -/
def execAndReg (dr sr1 sr2 : RegNum) (s : State) : Host.Outcome State Fault Refusal :=
  finish (s.writeResult dr (s.getReg sr1 &&& s.getReg sr2))

/-- AND, immediate form (R133). -/
def execAndImm (dr sr1 : RegNum) (imm5 : BitVec 5) (s : State) : Host.Outcome State Fault Refusal :=
  finish (s.writeResult dr (s.getReg sr1 &&& immPattern imm5))

/-- NOT (R134). The source is bits 8:6 of the word (R85, D7; log 10). -/
def execNot (dr sr : RegNum) (s : State) : Host.Outcome State Fault Refusal :=
  finish (s.writeResult dr (~~~(s.getReg sr)))

end Sys2Proof.Machine
end

