-- ==== Sys2Proof/Machine/System.lean ====
section
/-!
DEFINITION. The system instructions RTI and TRAP and the reserved opcode (`44_system.md`, R170 to R172). There is one mode, so
nothing is privileged (R211).
-/

namespace Sys2Proof.Machine

/-- RTI (R170): a no-op that commits and counts; it restores nothing (R209). -/
def execRti (s : State) : Host.Outcome State Fault Refusal :=
  finish s.advance

/-- TRAP (R171): `pc <- 0x0000` and nothing else (D8; log 11). The vector is extracted and never used. RUN is cleared by the
halt check of the next cycle (C5, D9; log 12). -/
def execTrap (_trapvect8 : BitVec 8) (s : State) : Host.Outcome State Fault Refusal :=
  finish (s.advance.setPc Config.haltPc)

/-- The instruction word of a reserved instruction, which the fault carries (R172, R202). -/
def reservedWord (low12 : BitVec 12) : Word := 0xD000#16 ||| low12.setWidth 16

/-- Opcode 0xD under either policy of D3. -/
def execReservedUnder (policy : ReservedPolicy) (low12 : BitVec 12) (s : State) : Host.Outcome State Fault Refusal :=
  match policy with
  | .failFast => raise (.illegalOpcode (reservedWord low12))
  | .noOp => finish s.advance

/-- The reserved opcode 0xD (R172): `raise IllegalOpcode(ir)`, always, under the spec's policy (D3; log 6). -/
def execReservedD (low12 : BitVec 12) (s : State) : Host.Outcome State Fault Refusal :=
  execReservedUnder Config.reservedPolicy low12 s

end Sys2Proof.Machine
end

