-- ==== Sys2Proof/Machine/Cycle.lean ====
section
/-!
DEFINITION. The cycle driver (`45_cycle_driver.md`, R180 to R191): halt check, fetch, advance, decode and dispatch, commit,
count; and the host's run loop over it.
-/

namespace Sys2Proof.Machine

/-- The two ways `cycle` ends without a fault (R11): one instruction was committed, or the halt check stopped the engine. -/
inductive CycleEnd where
  | committed (s : State)
  | halted (s : State)
  deriving DecidableEq, Repr

/-- Fetch (R182): the word `M[pc]`, or `OutOfBounds(pc, fetch)`. -/
def fetch (s : State) : Except Fault Word := s.memRead .fetch s.pc

/-- Commit and count (R186, R187): next-state becomes current-state, ICOUNT goes up by one. -/
def commit (t : State) : State := t.countOne

/-- Decode, dispatch, execute, commit (R184 to R187) for a fetched word. The default advance is made by the instruction's
meaning (R115). -/
def runWord (ir : Word) (s : State) : Host.Outcome CycleEnd Fault Refusal :=
  match exec (decode ir) s with
  | .next t => .next (.committed (commit t))
  | .fault f => .fault f
  | .refused r => .refused r

/-- `cycle` (R180), its checks in the order of R207 (D17; log 21). -/
def cycle (s : State) : Host.Outcome CycleEnd Fault Refusal :=
  if s.run = false then .next (.halted s)
  else if s.pc = Config.haltPc then .next (.halted (s.setRun false))
  else
    match fetch s with
    | .ok ir => runWord ir s
    | .error f => .fault f

/-- A step's next state is the state either end of a cycle leaves (log 2). RUN tells the two apart: a committed cycle leaves it
1, a halted one 0 (R27). -/
def CycleEnd.state : CycleEnd → State
  | .committed s => s
  | .halted s => s

/-- `cycle` as the host's three outcomes. -/
def outcomeOfCycle : Host.Outcome CycleEnd Fault Refusal → Host.Outcome State Fault Refusal
  | .next e => .next e.state
  | .fault f => .fault f
  | .refused r => .refused r

/-- How a run of at most n cycles ends (R189, R191). -/
inductive RunEnd where
  | halted
  | fault (f : Fault)
  | ran
  | refused (r : Refusal)
  deriving DecidableEq, Repr

/-- `run(S, n)` (R189): the state it leaves, and how it ended. After a fault the state is the one before the faulting cycle
(R191, R203). -/
def hostRun : Nat → State → State × RunEnd
  | 0, s => (s, .ran)
  | k + 1, s =>
    match cycle s with
    | .next (.committed t) => hostRun k t
    | .next (.halted t) => (t, .halted)
    | .fault f => (s, .fault f)
    | .refused r => (s, .refused r)

/-! Placing one word where the next cycle fetches it, for `State.withFetchWord` (logs 15, 16). -/

/-- The address the next cycle will fetch from: the PC where it can be fetched from (R24), else `Config.exampleBase`. -/
def fetchSlot (s : State) : Word := if s.pc ≠ Config.haltPc && inRange s.pc then s.pc else Config.exampleBase

/-- Makes the engine runnable. On the power-on flags (none set) this is the finalisation of R235, which also forces Z. -/
def makeRunnable (s : State) : State :=
  if s.run then s else if s.n || s.z || s.p then s.setRun true else { s with z := true, run := true }

/-- The state with the word stored where the next cycle fetches, and the engine running. -/
def placeWord (s : State) (w : Word) : State :=
  makeRunnable ((s.setMem (s.mem.writeWord (fetchSlot s).toNat w)).setPc (fetchSlot s))

end Sys2Proof.Machine
end

