-- ==== Sys2Proof/Machine/Inspect.lean ====
section
/-!
DEFINITION. The inspection contract (R35, R215): what the host reads between cycles. A read changes nothing, so each is a
function of the state.
-/

namespace Sys2Proof.Machine

/-- The latches, RUN and ICOUNT as the host sees them (R35). -/
structure Inspection where
  pc : Word
  n : Bool
  z : Bool
  p : Bool
  x : Vector Word 8
  run : Bool
  icount : Nat
  deriving DecidableEq, Repr

/-- The host's read of everything but memory (R35). -/
def State.inspect (s : State) : Inspection := ⟨s.pc, s.n, s.z, s.p, s.x, s.run, s.icount⟩

/-- The host's read of `M[a]`, a <= 0x7FFF; above, the read is outside the contract (R35) and gives nothing. -/
def State.inspectWord (s : State) (a : Nat) : Option Word :=
  if a < Config.memWords then some (s.mem.readWord a) else none

end Sys2Proof.Machine
end

