-- ==== Sys2Proof/Machine/Load.lean ====
section
/-!
DEFINITION. The host's initialisation (R231 to R237): `Load`, finalisation, launch. `BASE` and `IMAGE` are open parameters
(R7, D13), so they are arguments.
-/

namespace Sys2Proof.Machine

/-- Why a load fails (R232, R236). What the external loader cannot even turn into arguments (a non-hex token, an unreadable
file) never reaches CORE (R5). -/
inductive LoadError where
  /-- "program exceeds memory capacity": `base + L > 32768`. -/
  | exceedsCapacity (base : Word) (length : Nat)
  deriving DecidableEq, Repr

/-- One program image and its base (R7). -/
structure Image where
  base : Word
  words : List Word
  deriving DecidableEq, Repr

/-- The precondition of `Load` (R232): every target cell exists. -/
def Image.fits (im : Image) : Bool := decide (im.base.toNat + im.words.length ≤ Config.memWords)

/-- `M[a + i] <- words[i]` (R233). -/
def Memory.writeImage (m : Memory) (a : Nat) : List Word → Memory
  | [] => m
  | w :: ws => Memory.writeImage (m.writeWord a w) (a + 1) ws

/-- `if pc = 0x0000 then pc <- base` (R234). -/
def loadPc (pc base : Word) : Word := if pc = 0x0000#16 then base else pc

/-- `Load(base, image)` (R232 to R234). A load that fails writes nothing (R236, D14). -/
def load (im : Image) (s : State) : Except LoadError State :=
  if im.fits then .ok ((s.setMem (s.mem.writeImage im.base.toNat im.words)).setPc (loadPc s.pc im.base))
  else .error (.exceedsCapacity im.base im.words.length)

/-- The loads, in order; the first that fails ends the start-up (R231, R236). -/
def loadAll : List Image → State → Except LoadError State
  | [], s => .ok s
  | im :: ims, s =>
    match load im s with
    | .ok t => loadAll ims t
    | .error e => .error e

/-- Finalisation (R235): `Z <- 1`; `RUN <- 1` if at least one program was loaded (D12, D23). -/
def finalise (loaded : Bool) (s : State) : State := { s with z := true, run := s.run || loaded }

/-- The launch state of a list of images (R231, R237), from power-on. -/
def launch (ims : List Image) : Except LoadError State :=
  match loadAll ims State.reset with
  | .ok s => .ok (finalise (!ims.isEmpty) s)
  | .error e => .error e

end Sys2Proof.Machine
end

