-- ==== Sys2Proof/Machine/Step.lean ====
section
/-!
DEFINITION. One step of CORE: one call of `cycle` (R180).
-/

namespace Sys2Proof.Machine

/-- One cycle. `Committed(S')` and `Halted(S')` are the next state S', a fault is a fault (R11, R180; log 2). -/
def step (s : State) : Host.Outcome State Fault Refusal := outcomeOfCycle (cycle s)

/-- The state whose very next step fetches and runs the word w. It stands for the host's `Load` of the one-word image and its
finalisation (R231 to R235; logs 15, 16). Bits above `nbits` are 0. -/
def State.withFetchWord (s : State) (nbits w : Nat) : State := placeWord s (BitVec.ofNat 16 (w % 2 ^ nbits))

end Sys2Proof.Machine
end

