-- ==== Sys2Proof/Safety.lean ====
section
/-!
DEFINITION. The terms claims about CORE are stated in: valid states (R26, R36), what an instruction writes and accesses (the
tables of R22 and R52), what stays unchanged, and how a run ends (R191, R204, R217).
-/

namespace Sys2Proof

open Machine

/-! Valid states. -/

/-- "Exactly one of N/Z/P is set" (R26): N + Z + P = 1. -/
abbrev OneHot (s : State) : Prop := s.n.toNat + s.z.toNat + s.p.toNat = 1

/-- A valid state (R36): exactly one flag, and memory in its canonical form. The widths of R33 are in the types, and the
next-state latches are no field (log 3). -/
abbrev Valid (s : State) : Prop := OneHot s ∧ s.mem.wf = true

/-- The flags of t are those of the value v (R112): Z when v = 0x0000, N when 0x8000 <= v, P when 0x0001 <= v <= 0x7FFF. -/
abbrev FlagsOf (v : Word) (t : State) : Prop :=
  (t.z = true ↔ v.toNat = 0) ∧ (t.n = true ↔ 0x8000 ≤ v.toNat) ∧ (t.p = true ↔ 0x0001 ≤ v.toNat ∧ v.toNat ≤ 0x7FFF)

/-! What stays unchanged from s to t. -/

/-- The three flags. -/
abbrev SameFlags (s t : State) : Prop := t.n = s.n ∧ t.z = s.z ∧ t.p = s.p

/-- Every general register but those listed. -/
abbrev SameRegsBut (ds : List RegNum) (s t : State) : Prop := ∀ r, r ∉ ds → t.getReg r = s.getReg r

/-- Every cell of memory. -/
abbrev SameMemory (s t : State) : Prop := ∀ k, t.mem.readByte k = s.mem.readByte k

/-- Every cell of memory but the two that hold the word at address a. -/
abbrev SameMemoryBut (a : Word) (s t : State) : Prop :=
  ∀ k, k ≠ Memory.lowKey a.toNat → k ≠ Memory.highKey a.toNat → t.mem.readByte k = s.mem.readByte k

/-- RUN and ICOUNT, which no instruction writes (R27, R28). -/
abbrev SameControl (s t : State) : Prop := t.run = s.run ∧ t.icount = s.icount

/-! What an instruction writes and accesses. -/

/-- `w[hi:lo]` as a number (R8). -/
def field (w : Word) (hi lo : Nat) : Nat := w.toNat / 2 ^ lo % 2 ^ (hi - lo + 1)

/-- The register an instruction writes, from the table of R22. -/
def destRegs : Instr → List RegNum
  | .addReg dr _ _ => [dr]
  | .addImm dr _ _ => [dr]
  | .andReg dr _ _ => [dr]
  | .andImm dr _ _ => [dr]
  | .not dr _ => [dr]
  | .ld dr _ => [dr]
  | .ldi dr _ => [dr]
  | .ldr dr _ _ => [dr]
  | .lea dr _ => [dr]
  | .jsr _ => [linkReg]
  | .jsrr _ => [linkReg]
  | .br _ _ _ _ => []
  | .jmp _ => []
  | .st _ _ => []
  | .sti _ _ => []
  | .str _ _ _ => []
  | .rti => []
  | .trap _ => []
  | .reservedD _ => []

/-- Whether an instruction performs `setcc`, from the tables of R22 and R116 (R25, C2). -/
def writesFlags : Instr → Bool
  | .addReg _ _ _ => true
  | .addImm _ _ _ => true
  | .andReg _ _ _ => true
  | .andImm _ _ _ => true
  | .not _ _ => true
  | .ld _ _ => true
  | .ldi _ _ => true
  | .ldr _ _ _ => true
  | .lea _ _ => false
  | .jsr _ => false
  | .jsrr _ => false
  | .br _ _ _ _ => false
  | .jmp _ => false
  | .st _ _ => false
  | .sti _ _ => false
  | .str _ _ _ => false
  | .rti => false
  | .trap _ => false
  | .reservedD _ => false

/-- An access an instruction makes after its fetch: its kind and its address. -/
abbrev Access := AccessKind × Word

/-- The accesses an instruction makes after the fetch, in order, from the table of R52. The pointer of LDI and STI is the word
at the first access's address. -/
def accesses (i : Instr) (s : State) : List Access :=
  match i with
  | .ld _ off => [(.read, pcRel9 s off)]
  | .ldr _ b off => [(.read, baseOff6 s b off)]
  | .ldi _ off => [(.read, pcRel9 s off), (.read, s.mem.readWord (pcRel9 s off).toNat)]
  | .st _ off => [(.write, pcRel9 s off)]
  | .str _ b off => [(.write, baseOff6 s b off)]
  | .sti _ off => [(.read, pcRel9 s off), (.write, s.mem.readWord (pcRel9 s off).toNat)]
  | .addReg _ _ _ => []
  | .addImm _ _ _ => []
  | .andReg _ _ _ => []
  | .andImm _ _ _ => []
  | .not _ _ => []
  | .lea _ _ => []
  | .br _ _ _ _ => []
  | .jmp _ => []
  | .jsr _ => []
  | .jsrr _ => []
  | .rti => []
  | .trap _ => []
  | .reservedD _ => []

/-- The first access that is out of range (R207): the one the fault names. -/
def firstBad : List Access → Option Access
  | [] => none
  | a :: as => if a.2.toNat < 32768 then firstBad as else some a

/-- The state with RUN and ICOUNT replaced. -/
def withControl (b : Bool) (k : Nat) (s : State) : State := { s with run := b, icount := k }

/-- Applies f to the next state of an outcome. -/
def mapNext (f : State → State) : Host.Outcome State Fault Refusal → Host.Outcome State Fault Refusal
  | .next t => .next (f t)
  | .fault e => .fault e
  | .refused r => .refused r

/-! Runs. -/

/-- k steps of CORE, until one faults. A halted engine stays as it is (R181), so steps go on through a halt. -/
def steps (k : Nat) (s : State) : Host.Outcome State Fault Refusal := Host.Core.run core k s

/-- `go(S)` ends (R189): some bounded run ends otherwise than by its bound, and leaves t. -/
def GoesTo (s t : State) (e : RunEnd) : Prop := ∃ n, hostRun n s = (t, e) ∧ e ≠ .ran

/-- A run from s ends normally in t (R191): at its first `Halted` outcome. -/
def EndsNormally (s t : State) : Prop := GoesTo s t .halted

/-- A run from s ends abnormally in t with the fault f (R191). It has not halted (R204, R217). -/
def EndsAbnormally (s t : State) (f : Fault) : Prop := GoesTo s t (.fault f)

/-- Why an instruction cycle in state t faults with f, in the order of R207: the fetch, the opcode, the accesses. -/
def FaultCause (t : State) (f : Fault) : Prop :=
  (0x8000 ≤ t.pc.toNat ∧ f = .outOfBounds t.pc .fetch) ∨
  (t.pc.toNat < 0x8000 ∧ field (t.mem.readWord t.pc.toNat) 15 12 = 0xD ∧
    f = .illegalOpcode (t.mem.readWord t.pc.toNat)) ∨
  (t.pc.toNat < 0x8000 ∧ ∃ k a, firstBad (accesses (decode (t.mem.readWord t.pc.toNat)) t) = some (k, a) ∧
    f = .outOfBounds a k)

end Sys2Proof
end

