-- ==== Sys2Proof/Certificates/Slice0/Obligations.lean ====
section
/-!
DEFINITION. The statements about CORE. Each docstring names the rule it formalises; where a clause rests on a decision or an
inference the spec marks as its own (D<n>, or `[derived]`), the docstring names it and the log entry.
-/

open Sys2Proof Sys2Proof.Machine

/-! Reset, load, launch. -/

/-- R230 (with R34): power-on leaves everything zero and RUN 0, and "`cycle()` on it returns `Halted` and changes nothing".
RUN = 0 and ICOUNT = 0 are D12 and D11 (logs 14, 13). -/
def Obligations.PowerOnStateIsZeroAndStopped : Prop :=
  (∀ r, State.reset.getReg r = 0x0000#16) ∧ State.reset.pc = 0x0000#16 ∧
    State.reset.n = false ∧ State.reset.z = false ∧ State.reset.p = false ∧
    (∀ a, State.reset.mem.readWord a = 0x0000#16) ∧ State.reset.run = false ∧ State.reset.icount = 0 ∧
    step State.reset = .next State.reset

/-- The memory of the power-on state is in the model's canonical form (log 1), and its flags are not one-hot (R230: "This
state is not a valid architectural state"). -/
def Obligations.PowerOnMemoryIsCanonical : Prop := State.reset.mem.wf = true ∧ ¬ OneHot State.reset

/-- R232 to R234, R236: a load whose image fits writes exactly its words and sets the PC only if it was 0; one that does not
fit is refused. All-or-nothing is D14 (log 15). -/
def Obligations.LoadPlacesTheImage : Prop :=
  ∀ (im : Image) (s : State),
    (32768 < im.base.toNat + im.words.length → load im s = .error (.exceedsCapacity im.base im.words.length)) ∧
    (im.base.toNat + im.words.length ≤ 32768 → s.mem.wf = true →
      ∃ t, load im s = .ok t ∧
        (∀ i (h : i < im.words.length), t.mem.readWord (im.base.toNat + i) = im.words[i]) ∧
        (∀ a, a < im.base.toNat ∨ im.base.toNat + im.words.length ≤ a → t.mem.readWord a = s.mem.readWord a) ∧
        t.mem.wf = true ∧
        (s.pc = 0x0000#16 → t.pc = im.base) ∧ (s.pc ≠ 0x0000#16 → t.pc = s.pc) ∧
        (∀ r, t.getReg r = s.getReg r) ∧ SameFlags s t ∧ SameControl s t)

/-- R235: finalisation forces Z to 1 and sets RUN once a program has been loaded (D12, D23: logs 14, 15). -/
def Obligations.FinalisationForcesZAndSetsRun : Prop :=
  ∀ (s : State) (loaded : Bool), s.n = false → s.p = false → s.run = false →
    OneHot (finalise loaded s) ∧ (finalise loaded s).z = true ∧ (finalise loaded s).run = loaded ∧
      (finalise loaded s).pc = s.pc ∧ (finalise loaded s).mem = s.mem ∧ (finalise loaded s).icount = s.icount ∧
      ∀ r, (finalise loaded s).getReg r = s.getReg r

/-- R237: the launch state of a single load with `BASE != 0` and an image that fits. -/
def Obligations.LaunchStateOfOneImage : Prop :=
  ∀ (base : Word) (words : List Word), base ≠ 0x0000#16 → base.toNat + words.length ≤ 32768 →
    ∃ s, launch [⟨base, words⟩] = .ok s ∧
      (∀ r, s.getReg r = 0x0000#16) ∧ s.pc = base ∧ s.n = false ∧ s.z = true ∧ s.p = false ∧
      (∀ i (h : i < words.length), s.mem.readWord (base.toNat + i) = words[i]) ∧
      (∀ a, a < base.toNat ∨ base.toNat + words.length ≤ a → s.mem.readWord a = 0x0000#16) ∧
      s.run = true ∧ s.icount = 0

/-- R239 (D24): with every image at base 0 the PC stays 0, and the first cycle halts at once: RUN is cleared, nothing was
counted. -/
def Obligations.LaunchAtBaseZeroHaltsAtOnce : Prop :=
  ∀ (words : List Word), words.length ≤ 32768 →
    ∃ s t, launch [⟨0x0000#16, words⟩] = .ok s ∧ cycle s = .next (.halted t) ∧ t = s.setRun false ∧ t.icount = 0 ∧
      ∀ r, t.getReg r = 0x0000#16

/-- R36: every launch state is valid, however many images were loaded. -/
def Obligations.LaunchStatesAreValid : Prop :=
  ∀ (ims : List Image) (s : State), launch ims = .ok s → Valid s ∧ (s.run = true ↔ ims ≠ [])

/-! Encoding. -/

/-- Words written out from the patterns of R83, one of each family at least, decode to their instructions. -/
def Obligations.WordsOfThePatternsDecode : Prop :=
  decode 0b0000_001_111111011#16 = .br false false true 0x1FB#9 ∧
  decode 0b0001_000_001_0_00_010#16 = .addReg 0 1 2 ∧
  decode 0b0101_001_010_1_11111#16 = .andImm 1 2 0x1F#5 ∧
  decode 0b1001_011_100_111111#16 = .not 3 4 ∧
  decode 0b1010_100_000000110#16 = .ldi 4 0x006#9 ∧
  decode 0b0111_001_110_111111#16 = .str 1 6 0x3F#6 ∧
  decode 0b0100_1_00000000100#16 = .jsr 0x004#11 ∧
  decode 0b1100_000_111_000000#16 = .jmp 7 ∧
  decode 0b1111_0000_00100101#16 = .trap 0x25#8 ∧
  decode 0b1101_000000000000#16 = .reservedD 0x000#12

/-- Decode of encode is the identity, for every instruction with every operand at every value (R83, R91 for the ignored
bits; log 19). -/
def Obligations.DecodeOfEncodeIsIdentity : Prop := ∀ i : Instr, decode (encode i) = i

/-- R88, R89: every word matches exactly one row of the 19-row opcode table, the row of the instruction it decodes to. -/
def Obligations.EveryWordMatchesExactlyItsRow : Prop :=
  ∀ w : Word, (decode w).row ∈ opcodeTable ∧ w &&& (decode w).row.mask = (decode w).row.matchBits ∧
    ∀ r ∈ opcodeTable, w &&& r.mask = r.matchBits → r = (decode w).row

/-- R91 (D6: log 9): words that differ only in bits their row ignores decode to the same instruction (the reserved opcode
apart, whose fault carries the word), and the vector of TRAP has no effect. -/
def Obligations.IgnoredBitsHaveNoEffect : Prop :=
  (∀ w w' : Word, field w 15 12 ≠ 0xD → (w ^^^ w') &&& ~~~(decode w).row.ignored = 0#16 → decode w' = decode w) ∧
    ∀ v v' s, exec (.trap v) s = exec (.trap v') s

/-- R97: a signed value in the range of an N-bit field is held as `v mod 2^N`, and sign extension reads it back. -/
def Obligations.SignedFieldHoldsItsValue : Prop :=
  ∀ (n : Nat) (v : Int), 1 ≤ n → (signedFits n v = true ↔ -(2 ^ (n - 1)) ≤ v ∧ v ≤ 2 ^ (n - 1) - 1) ∧
    ((fieldOfInt n v).toNat : Int) = v % 2 ^ n ∧ (signedFits n v = true → sext (fieldOfInt n v) = v)

/-! Datapath units. -/

/-- R110: the sign extender, for widths 1 to 16, its range, and the round trip through `to16`. -/
def Obligations.SignExtensionIsTwosComplement : Prop :=
  ∀ (n : Nat), 1 ≤ n → n ≤ 16 → ∀ v : BitVec n,
    (v.toNat < 2 ^ (n - 1) → sext v = v.toNat) ∧ (2 ^ (n - 1) ≤ v.toNat → sext v = (v.toNat : Int) - 2 ^ n) ∧
      -(2 ^ (n - 1)) ≤ sext v ∧ sext v ≤ 2 ^ (n - 1) - 1 ∧ (to16 (sext v)).setWidth n = v

/-- R111: the adder is the sum of the sign-extended operands modulo 65536; with a word on the left it is 16-bit addition of
the sign-extended pattern; it commutes; a one-bit 1 is -1 (C4). -/
def Obligations.AdderIsTheModularSum : Prop :=
  (∀ (wa wb : Nat) (a : BitVec wa) (b : BitVec wb),
    ((add16 a b).toNat : Int) = (sext a + sext b) % 65536 ∧ add16 a b = add16 b a ∧
      add16 a b = to16 (sext a) + to16 (sext b)) ∧
    (∀ (n : Nat) (a : Word) (b : BitVec n), n ≤ 16 → add16 a b = a + b.signExtend 16) ∧
    ∀ x : Word, add16 x 1#1 = x - 1#16 ∧ add16 x 1#2 = x + 1#16

/-- R112 (C2): `update_flags` sets exactly one flag by the value, and exactly ADD, AND, NOT, LD, LDI and LDR apply it, to the
value they write to their register; every other instruction leaves the flags as they were. -/
def Obligations.FlagsFollowTheWrittenValue : Prop :=
  (∀ v : Word, (v = 0x0000#16 → updateFlags v = (false, true, false)) ∧
    (0x8000 ≤ v.toNat → updateFlags v = (true, false, false)) ∧
    (0x0001 ≤ v.toNat → v.toNat ≤ 0x7FFF → updateFlags v = (false, false, true))) ∧
  ∀ i s t, exec i s = .next t →
    (writesFlags i = true → ∃ d, destRegs i = [d] ∧ FlagsOf (t.getReg d) t) ∧
      (writesFlags i = false → SameFlags s t)

/-- R183: `apc = to16(pc + 1)`, the address of the word after the fetched one. The amount 1 is the spec's own decision D5
(log 8), which is why this is a statement of its own: those of the instructions speak of `apc`, as their rules do. -/
def Obligations.AdvancedPcIsTheNextWord : Prop :=
  ∀ s : State, (s.pc.toNat < 0xFFFF → s.apc.toNat = s.pc.toNat + 1) ∧ (s.pc.toNat = 0xFFFF → s.apc.toNat = 0)

/-! Operate instructions. -/

/-- R130, with `pc <- apc`; what `apc` is, `AdvancedPcIsTheNextWord` states. -/
def Obligations.AddRegisterAddsModulo65536 : Prop :=
  (∀ w : Word, w &&& 0xF020#16 = 0x1000#16 → ∃ dr sr1 sr2, decode w = .addReg dr sr1 sr2 ∧
    dr.val = field w 11 9 ∧ sr1.val = field w 8 6 ∧ sr2.val = field w 2 0) ∧
  ∀ dr sr1 sr2 s, ∃ t, exec (.addReg dr sr1 sr2) s = .next t ∧
    (t.getReg dr).toNat = ((s.getReg sr1).toNat + (s.getReg sr2).toNat) % 65536 ∧ FlagsOf (t.getReg dr) t ∧
    t.pc = s.apc ∧ SameRegsBut [dr] s t ∧ SameMemory s t ∧ SameControl s t

/-- R131. -/
def Obligations.AddImmediateAddsTheSignedField : Prop :=
  (∀ w : Word, w &&& 0xF020#16 = 0x1020#16 → ∃ dr sr1 imm5, decode w = .addImm dr sr1 imm5 ∧
    dr.val = field w 11 9 ∧ sr1.val = field w 8 6 ∧ imm5.toNat = field w 4 0) ∧
  ∀ dr sr1 imm5 s, ∃ t, exec (.addImm dr sr1 imm5) s = .next t ∧
    ((t.getReg dr).toNat : Int) = ((s.getReg sr1).toNat + imm5.toInt) % 65536 ∧ FlagsOf (t.getReg dr) t ∧
    t.pc = s.apc ∧ SameRegsBut [dr] s t ∧ SameMemory s t ∧ SameControl s t

/-- R132: bit by bit. -/
def Obligations.AndRegisterIsBitwise : Prop :=
  (∀ w : Word, w &&& 0xF020#16 = 0x5000#16 → ∃ dr sr1 sr2, decode w = .andReg dr sr1 sr2 ∧
    dr.val = field w 11 9 ∧ sr1.val = field w 8 6 ∧ sr2.val = field w 2 0) ∧
  ∀ dr sr1 sr2 s, ∃ t, exec (.andReg dr sr1 sr2) s = .next t ∧
    (∀ k, k < 16 → (t.getReg dr).getLsbD k = ((s.getReg sr1).getLsbD k && (s.getReg sr2).getLsbD k)) ∧
    FlagsOf (t.getReg dr) t ∧ t.pc = s.apc ∧ SameRegsBut [dr] s t ∧ SameMemory s t ∧ SameControl s t

/-- R133: the immediate's pattern is imm5 below 0x10 and 0xFFE0 | imm5 from 0x10 on. -/
def Obligations.AndImmediateMasksWithTheSignedField : Prop :=
  (∀ w : Word, w &&& 0xF020#16 = 0x5020#16 → ∃ dr sr1 imm5, decode w = .andImm dr sr1 imm5 ∧
    dr.val = field w 11 9 ∧ sr1.val = field w 8 6 ∧ imm5.toNat = field w 4 0) ∧
  ∀ dr sr1 (imm5 : BitVec 5) s, ∃ t, exec (.andImm dr sr1 imm5) s = .next t ∧
    (imm5.toNat < 0x10 → t.getReg dr = s.getReg sr1 &&& imm5.setWidth 16) ∧
    (0x10 ≤ imm5.toNat → t.getReg dr = s.getReg sr1 &&& (0xFFE0#16 ||| imm5.setWidth 16)) ∧
    FlagsOf (t.getReg dr) t ∧ t.pc = s.apc ∧ SameRegsBut [dr] s t ∧ SameMemory s t ∧ SameControl s t

/-- R134, with the source register at bits 8:6, the spec's decision D7 (log 10). -/
def Obligations.NotComplementsTheSource : Prop :=
  (∀ w : Word, w &&& 0xF000#16 = 0x9000#16 → ∃ dr sr, decode w = .not dr sr ∧
    dr.val = field w 11 9 ∧ sr.val = field w 8 6) ∧
  ∀ dr sr s, ∃ t, exec (.not dr sr) s = .next t ∧
    (t.getReg dr).toNat = 0xFFFF - (s.getReg sr).toNat ∧ FlagsOf (t.getReg dr) t ∧
    t.pc = s.apc ∧ SameRegsBut [dr] s t ∧ SameMemory s t ∧ SameControl s t

/-! Data movement instructions. -/

/-- R140. The fault above 0x7FFF is the policy the document recommends (D1, log 4). -/
def Obligations.LdLoadsTheWordAtThePcRelativeAddress : Prop :=
  (∀ w : Word, w &&& 0xF000#16 = 0x2000#16 → ∃ dr off9, decode w = .ld dr off9 ∧
    dr.val = field w 11 9 ∧ off9.toNat = field w 8 0) ∧
  ∀ dr off9 s, ((pcRel9 s off9).toNat : Int) = (s.apc.toNat + off9.toInt) % 65536 ∧
    ((pcRel9 s off9).toNat < 0x8000 → ∃ t, exec (.ld dr off9) s = .next t ∧
      t.getReg dr = s.mem.readWord (pcRel9 s off9).toNat ∧ FlagsOf (t.getReg dr) t ∧
      t.pc = s.apc ∧ SameRegsBut [dr] s t ∧ SameMemory s t ∧ SameControl s t) ∧
    (0x8000 ≤ (pcRel9 s off9).toNat → exec (.ld dr off9) s = .fault (.outOfBounds (pcRel9 s off9) .read))

/-- R141: one pointer, `M[M[ea]]`, the spec's decision D19 (log 17); the pointer's fault comes first (D1, log 4). -/
def Obligations.LdiLoadsThroughThePointerCell : Prop :=
  (∀ w : Word, w &&& 0xF000#16 = 0xA000#16 → ∃ dr off9, decode w = .ldi dr off9 ∧
    dr.val = field w 11 9 ∧ off9.toNat = field w 8 0) ∧
  ∀ dr off9 s ptr, ptr = s.mem.readWord (pcRel9 s off9).toNat →
    ((pcRel9 s off9).toNat : Int) = (s.apc.toNat + off9.toInt) % 65536 ∧
    ((pcRel9 s off9).toNat < 0x8000 → ptr.toNat < 0x8000 → ∃ t, exec (.ldi dr off9) s = .next t ∧
      t.getReg dr = s.mem.readWord ptr.toNat ∧ FlagsOf (t.getReg dr) t ∧
      t.pc = s.apc ∧ SameRegsBut [dr] s t ∧ SameMemory s t ∧ SameControl s t) ∧
    (0x8000 ≤ (pcRel9 s off9).toNat → exec (.ldi dr off9) s = .fault (.outOfBounds (pcRel9 s off9) .read)) ∧
    ((pcRel9 s off9).toNat < 0x8000 → 0x8000 ≤ ptr.toNat → exec (.ldi dr off9) s = .fault (.outOfBounds ptr .read))

/-- R142. -/
def Obligations.LdrLoadsTheWordAtBasePlusOffset : Prop :=
  (∀ w : Word, w &&& 0xF000#16 = 0x6000#16 → ∃ dr b off6, decode w = .ldr dr b off6 ∧
    dr.val = field w 11 9 ∧ b.val = field w 8 6 ∧ off6.toNat = field w 5 0) ∧
  ∀ dr b off6 s, ((baseOff6 s b off6).toNat : Int) = ((s.getReg b).toNat + off6.toInt) % 65536 ∧
    ((baseOff6 s b off6).toNat < 0x8000 → ∃ t, exec (.ldr dr b off6) s = .next t ∧
      t.getReg dr = s.mem.readWord (baseOff6 s b off6).toNat ∧ FlagsOf (t.getReg dr) t ∧
      t.pc = s.apc ∧ SameRegsBut [dr] s t ∧ SameMemory s t ∧ SameControl s t) ∧
    (0x8000 ≤ (baseOff6 s b off6).toNat → exec (.ldr dr b off6) s = .fault (.outOfBounds (baseOff6 s b off6) .read))

/-- R143: no access, no fault, no flag. -/
def Obligations.LeaWritesTheAddressAndNoFlag : Prop :=
  (∀ w : Word, w &&& 0xF000#16 = 0xE000#16 → ∃ dr off9, decode w = .lea dr off9 ∧
    dr.val = field w 11 9 ∧ off9.toNat = field w 8 0) ∧
  ∀ dr off9 s, ∃ t, exec (.lea dr off9) s = .next t ∧
    ((t.getReg dr).toNat : Int) = (s.apc.toNat + off9.toInt) % 65536 ∧ SameFlags s t ∧
    t.pc = s.apc ∧ SameRegsBut [dr] s t ∧ SameMemory s t ∧ SameControl s t

/-- R144, with the source register at bits 11:9, which the spec derives (R85, D7: log 10). The value stored reads back in
a canonical memory; every other cell is as before in any memory. -/
def Obligations.StStoresAtThePcRelativeAddress : Prop :=
  (∀ w : Word, w &&& 0xF000#16 = 0x3000#16 → ∃ sr off9, decode w = .st sr off9 ∧
    sr.val = field w 11 9 ∧ off9.toNat = field w 8 0) ∧
  ∀ sr off9 s, ((pcRel9 s off9).toNat : Int) = (s.apc.toNat + off9.toInt) % 65536 ∧
    ((pcRel9 s off9).toNat < 0x8000 → ∃ t, exec (.st sr off9) s = .next t ∧
      (s.mem.wf = true → t.mem.readWord (pcRel9 s off9).toNat = s.getReg sr) ∧ SameMemoryBut (pcRel9 s off9) s t ∧
      SameFlags s t ∧ t.pc = s.apc ∧ SameRegsBut [] s t ∧ SameControl s t) ∧
    (0x8000 ≤ (pcRel9 s off9).toNat → exec (.st sr off9) s = .fault (.outOfBounds (pcRel9 s off9) .write))

/-- R145: one pointer (D19, log 17); the pointer is read, and checked, before the write (D1, log 4). -/
def Obligations.StiStoresThroughThePointerCell : Prop :=
  (∀ w : Word, w &&& 0xF000#16 = 0xB000#16 → ∃ sr off9, decode w = .sti sr off9 ∧
    sr.val = field w 11 9 ∧ off9.toNat = field w 8 0) ∧
  ∀ sr off9 s ptr, ptr = s.mem.readWord (pcRel9 s off9).toNat →
    ((pcRel9 s off9).toNat : Int) = (s.apc.toNat + off9.toInt) % 65536 ∧
    ((pcRel9 s off9).toNat < 0x8000 → ptr.toNat < 0x8000 → ∃ t, exec (.sti sr off9) s = .next t ∧
      (s.mem.wf = true → t.mem.readWord ptr.toNat = s.getReg sr) ∧ SameMemoryBut ptr s t ∧
      SameFlags s t ∧ t.pc = s.apc ∧ SameRegsBut [] s t ∧ SameControl s t) ∧
    (0x8000 ≤ (pcRel9 s off9).toNat → exec (.sti sr off9) s = .fault (.outOfBounds (pcRel9 s off9) .read)) ∧
    ((pcRel9 s off9).toNat < 0x8000 → 0x8000 ≤ ptr.toNat → exec (.sti sr off9) s = .fault (.outOfBounds ptr .write))

/-- R146, with the source register at bits 11:9, which the spec derives (R85, D7: log 10). -/
def Obligations.StrStoresAtBasePlusOffset : Prop :=
  (∀ w : Word, w &&& 0xF000#16 = 0x7000#16 → ∃ sr b off6, decode w = .str sr b off6 ∧
    sr.val = field w 11 9 ∧ b.val = field w 8 6 ∧ off6.toNat = field w 5 0) ∧
  ∀ sr b off6 s, ((baseOff6 s b off6).toNat : Int) = ((s.getReg b).toNat + off6.toInt) % 65536 ∧
    ((baseOff6 s b off6).toNat < 0x8000 → ∃ t, exec (.str sr b off6) s = .next t ∧
      (s.mem.wf = true → t.mem.readWord (baseOff6 s b off6).toNat = s.getReg sr) ∧
      SameMemoryBut (baseOff6 s b off6) s t ∧
      SameFlags s t ∧ t.pc = s.apc ∧ SameRegsBut [] s t ∧ SameControl s t) ∧
    (0x8000 ≤ (baseOff6 s b off6).toNat → exec (.str sr b off6) s = .fault (.outOfBounds (baseOff6 s b off6) .write))

/-! Control transfer instructions. -/

/-- R160: taken when a requested flag is set; never with no condition bit; always with all three in a state with exactly one
flag (R26). -/
def Obligations.BrBranchesOnTheRequestedFlags : Prop :=
  (∀ w : Word, w &&& 0xF000#16 = 0x0000#16 → ∃ n z p off9, decode w = .br n z p off9 ∧
    n.toNat = field w 11 11 ∧ z.toNat = field w 10 10 ∧ p.toNat = field w 9 9 ∧ off9.toNat = field w 8 0) ∧
  (∀ n z p off9 s, ∃ t, exec (.br n z p off9) s = .next t ∧
    ((n = true ∧ s.n = true ∨ z = true ∧ s.z = true ∨ p = true ∧ s.p = true) →
      (t.pc.toNat : Int) = (s.apc.toNat + off9.toInt) % 65536) ∧
    (¬ (n = true ∧ s.n = true ∨ z = true ∧ s.z = true ∨ p = true ∧ s.p = true) → t.pc = s.apc) ∧
    SameFlags s t ∧ SameRegsBut [] s t ∧ SameMemory s t ∧ SameControl s t) ∧
  (∀ off9 s, ∃ t, exec (.br false false false off9) s = .next t ∧ t.pc = s.apc) ∧
  ∀ off9 s, OneHot s → ∃ t, exec (.br true true true off9) s = .next t ∧
    (t.pc.toNat : Int) = (s.apc.toNat + off9.toInt) % 65536

/-- R161: the target is the whole register; RET is the word 0xC1C0. -/
def Obligations.JmpGoesToTheRegister : Prop :=
  (∀ w : Word, w &&& 0xF000#16 = 0xC000#16 → ∃ b, decode w = .jmp b ∧ b.val = field w 8 6) ∧
  decode 0xC1C0#16 = .jmp 7 ∧
  ∀ b s, ∃ t, exec (.jmp b) s = .next t ∧ t.pc = s.getReg b ∧ SameFlags s t ∧ SameRegsBut [] s t ∧
    SameMemory s t ∧ SameControl s t

/-- R162. R7 is the link register, which every JSR writes. -/
def Obligations.JsrLinksAndGoesPcRelative : Prop :=
  (∀ w : Word, w &&& 0xF800#16 = 0x4800#16 → ∃ off11, decode w = .jsr off11 ∧ off11.toNat = field w 10 0) ∧
  ∀ off11 s, ∃ t, exec (.jsr off11) s = .next t ∧ t.getReg 7 = s.apc ∧
    (t.pc.toNat : Int) = (s.apc.toNat + off11.toInt) % 65536 ∧ SameFlags s t ∧ SameRegsBut [7] s t ∧
    SameMemory s t ∧ SameControl s t

/-- R163: the target is the old value of BaseR, also when BaseR is R7. -/
def Obligations.JsrrLinksAndGoesToTheOldRegister : Prop :=
  (∀ w : Word, w &&& 0xF800#16 = 0x4000#16 → ∃ b, decode w = .jsrr b ∧ b.val = field w 8 6) ∧
  ∀ b s, ∃ t, exec (.jsrr b) s = .next t ∧ t.getReg 7 = s.apc ∧ t.pc = s.getReg b ∧ SameFlags s t ∧
    SameRegsBut [7] s t ∧ SameMemory s t ∧ SameControl s t

/-- The JSR/RET scenario of R161 and R162: however the subroutine changed the rest, a RET with the R7 that JSR left goes to
exactly the word after the JSR. -/
def Obligations.RetReturnsToTheWordAfterJsr : Prop :=
  ∀ off11 s t u, exec (.jsr off11) s = .next t → u.getReg 7 = t.getReg 7 →
    ∃ v, exec (.jmp 7) u = .next v ∧ v.pc = s.apc

/-! System instructions. -/

/-- R170: every word 0x8000 to 0x8FFF is the same no-op. -/
def Obligations.RtiOnlyAdvancesThePc : Prop :=
  (∀ w : Word, w &&& 0xF000#16 = 0x8000#16 → decode w = .rti) ∧
  ∀ s, ∃ t, exec .rti s = .next t ∧ t.pc = s.apc ∧ SameFlags s t ∧ SameRegsBut [] s t ∧ SameMemory s t ∧
    SameControl s t

/-- R171: TRAP zeroes the PC and nothing else, not even R7 or RUN; that the row is complete is D8, that RUN stays set is D9
(logs 11, 12). -/
def Obligations.TrapOnlyZeroesThePc : Prop :=
  (∀ w : Word, w &&& 0xF000#16 = 0xF000#16 → ∃ v, decode w = .trap v ∧ v.toNat = field w 7 0) ∧
  ∀ v s, ∃ t, exec (.trap v) s = .next t ∧ t.pc = 0x0000#16 ∧ SameFlags s t ∧ SameRegsBut [] s t ∧ SameMemory s t ∧
    SameControl s t

/-- R171, R181 (D9: log 12): after a TRAP's cycle RUN is still 1 and one cycle is counted; the next cycle is the halt check,
which clears RUN and keeps registers, flags, memory and count. -/
def Obligations.TrapHaltsAtTheFollowingCheck : Prop :=
  ∀ s v, s.run = true → s.pc ≠ 0x0000#16 → s.pc.toNat < 0x8000 → decode (s.mem.readWord s.pc.toNat) = .trap v →
    ∃ t u, cycle s = .next (.committed t) ∧ t.pc = 0x0000#16 ∧ t.run = true ∧ t.icount = s.icount + 1 ∧
      cycle t = .next (.halted u) ∧ u.pc = 0x0000#16 ∧ u.run = false ∧ u.icount = t.icount ∧ SameFlags s u ∧
      SameRegsBut [] s u ∧ SameMemory s u

/-- R172: opcode 0xD raises `IllegalOpcode` with the instruction word, in every state, under the spec's fail-fast policy
(D3, log 6). -/
def Obligations.ReservedOpcodeFaults : Prop :=
  ∀ w : Word, w &&& 0xF000#16 = 0xD000#16 →
    ∃ low12, decode w = .reservedD low12 ∧ ∀ s, exec (.reservedD low12) s = .fault (.illegalOpcode w)

/-- The other policy D3 allows for opcode 0xD (log 6): a no-op, `pc <- apc`. -/
def Obligations.ReservedOpcodeUnderTheNoOpPolicy : Prop :=
  ∀ low12 s, ∃ t, execReservedUnder .noOp low12 s = .next t ∧ t.pc = s.apc ∧ SameFlags s t ∧
    SameRegsBut [] s t ∧ SameMemory s t ∧ SameControl s t

/-! The cycle driver. -/

/-- R180, R184 to R187: when the engine runs and the PC is at a word it can fetch, a step is exec of the instruction that word
decodes to, and on a next state the count. The advance of the PC is inside exec (R115). -/
def Obligations.StepRunsTheDecodedInstruction : Prop :=
  ∀ s i, s.run = true → s.pc ≠ 0x0000#16 → s.pc.toNat < 0x8000 → decode (s.mem.readWord s.pc.toNat) = i →
    step s = mapNext (fun t => { t with icount := t.icount + 1 }) (exec i s)

/-- R207 (D17: log 21): the outcome of a cycle in every state, in the order the conditions are tested. A cycle that meets none
of the first six commits. So every step ends in a next state or in one of the two faults (R188, R200). -/
def Obligations.OutcomePriority : Prop :=
  ∀ s i, i = decode (s.mem.readWord s.pc.toNat) →
    (s.run = false → cycle s = .next (.halted s)) ∧
    (s.run = true → s.pc = 0x0000#16 → cycle s = .next (.halted (s.setRun false))) ∧
    (s.run = true → 0x8000 ≤ s.pc.toNat → cycle s = .fault (.outOfBounds s.pc .fetch)) ∧
    (s.run = true → s.pc ≠ 0x0000#16 → s.pc.toNat < 0x8000 →
      (field (s.mem.readWord s.pc.toNat) 15 12 = 0xD →
        cycle s = .fault (.illegalOpcode (s.mem.readWord s.pc.toNat))) ∧
      (∀ k a, firstBad (accesses i s) = some (k, a) → cycle s = .fault (.outOfBounds a k)) ∧
      (field (s.mem.readWord s.pc.toNat) 15 12 ≠ 0xD → firstBad (accesses i s) = none →
        ∃ t, cycle s = .next (.committed t)))

/-- R27, R181 (D9, D10: log 12): a step leaves RUN set exactly when it committed an instruction; a stopped engine stays as
it is; the halt check at PC 0 clears RUN and changes nothing else. -/
def Obligations.HaltCheckClearsRun : Prop :=
  ∀ s, (s.run = false → step s = .next s) ∧
    (s.run = true → s.pc = 0x0000#16 → ∃ u, step s = .next u ∧ u.run = false ∧ u.pc = s.pc ∧ u.icount = s.icount ∧
      SameFlags s u ∧ SameRegsBut [] s u ∧ SameMemory s u) ∧
    ∀ u, step s = .next u → (u.run = true ↔ s.run = true ∧ s.pc ≠ 0x0000#16)

/-- R187 (D11: log 13): ICOUNT goes up by one on every committed cycle and on nothing else. -/
def Obligations.InstructionCounterCountsCommittedCycles : Prop :=
  ∀ s u, step s = .next u →
    (s.run = true ∧ s.pc ≠ 0x0000#16 → u.icount = s.icount + 1) ∧
      (s.run = false ∨ s.pc = 0x0000#16 → u.icount = s.icount)

/-- R63: a store to the address of the next instruction is seen by the next fetch, whichever store made it: the next step
runs the word stored. -/
def Obligations.StoreIsSeenByTheNextFetch : Prop :=
  ∀ s i sr a, (∃ off, i = .st sr off) ∨ (∃ off, i = .sti sr off) ∨ (∃ b off, i = .str sr b off) →
    s.run = true → s.pc ≠ 0x0000#16 → s.pc.toNat < 0x8000 → decode (s.mem.readWord s.pc.toNat) = i →
    s.mem.wf = true → (AccessKind.write, a) ∈ accesses i s → firstBad (accesses i s) = none → a = s.apc →
      ∃ t, step s = .next t ∧ t.pc = a ∧ fetch t = .ok (s.getReg sr) ∧
        step t = mapNext (fun u => { u with icount := u.icount + 1 }) (exec (decode (s.getReg sr)) t)

/-- R145 with R141: a value stored through a pointer cell is read back through the same cell, from wherever the reading
instruction stands, when the pointer does not point at its own cell. -/
def Obligations.StiThenLdiRoundTrips : Prop :=
  ∀ s t u sr dr off off', s.mem.wf = true → exec (.sti sr off) s = .next t → u.mem = t.mem →
    pcRel9 u off' = pcRel9 s off → s.mem.readWord (pcRel9 s off).toNat ≠ pcRel9 s off →
      ∃ v, exec (.ldi dr off') u = .next v ∧ v.getReg dr = s.getReg sr

/-! Rules of the whole machine. -/

/-- R22: an instruction that gives a next state leaves every general register but the one its row of the table names. -/
def Obligations.OnlyTheNamedRegisterIsWritten : Prop :=
  ∀ i s t, exec i s = .next t → SameRegsBut (destRegs i) s t

/-- R52, R58: memory changes only at the address of the one write in the instruction's list of accesses; with no write, every
cell is as before. -/
def Obligations.OnlyTheListedWriteChangesMemory : Prop :=
  ∀ i s t, exec i s = .next t → (accesses i s).countP (fun a => a.1 == AccessKind.write) ≤ 1 ∧
    ∀ k, (∀ a, (AccessKind.write, a) ∈ accesses i s → k ≠ Memory.lowKey a.toNat ∧ k ≠ Memory.highKey a.toNat) →
      t.mem.readByte k = s.mem.readByte k

/-- R52: an instruction depends on memory only through the words its list of accesses reads. Two memories that agree on those
give the same fault, or next states that differ in memory alone. -/
def Obligations.OnlyTheListedReadsMatter : Prop :=
  ∀ i s m, (∀ a, (AccessKind.read, a) ∈ accesses i s → m.readWord a.toNat = s.mem.readWord a.toNat) →
    mapNext (fun t => t.setMem []) (exec i (s.setMem m)) = mapNext (fun t => t.setMem []) (exec i s)

/-- R27, R28: "No instruction can read or write `RUN`", and none ICOUNT: with both replaced, every instruction does the same and
leaves the replaced values. -/
def Obligations.RunAndCounterAreInvisibleToInstructions : Prop :=
  ∀ i s b k, exec i (withControl b k s) = mapNext (withControl b k) (exec i s)

/-- R26: every step keeps exactly one flag set, from every state that has it. -/
def Obligations.StepKeepsExactlyOneFlag : Prop := ∀ s u, OneHot s → step s = .next u → OneHot u

/-- Every step keeps the canonical form of memory (log 1), from every state that has it. -/
def Obligations.StepKeepsMemoryCanonical : Prop := ∀ s u, s.mem.wf = true → step s = .next u → u.mem.wf = true

/-- R36: "Every state reached from the initial state of rule R34 by `cycle()` is valid": after any launch, every run of any
length leaves a valid state, whichever way it ends. Of `Valid`, the flags are R36's; that memory is in its canonical form is the
model's own choice (log 1) and no part of R36. -/
def Obligations.ReachedStatesAreValid : Prop :=
  ∀ ims s n, launch ims = .ok s → Valid (hostRun n s).1

/-- R191, R203 (D4: log 7): a bounded run ends in one of three ways. A fault leaves the state before the faulting cycle, in
which the same fault comes again; a halt of a running engine leaves RUN clear and the PC 0, and more cycles change nothing;
otherwise it ran its n cycles and counted them all. -/
def Obligations.RunsEndInOneOfThreeWays : Prop :=
  ∀ n s t e, s.run = true → hostRun n s = (t, e) →
    (∃ f, e = .fault f ∧ t.run = true ∧ step t = .fault f) ∨
    (e = .halted ∧ t.run = false ∧ t.pc = 0x0000#16 ∧ step t = .next t) ∨
    (e = .ran ∧ t.run = true ∧ t.icount = s.icount + n)

/-- R188, R191, with R187 and R207: how a run ends is determined by the state it starts from, and is what CORE's steps say.
No run ends in a refusal. A running engine that ends normally in t has committed exactly `t.icount - s.icount` instructions: after
that many steps it is t with RUN still 1, and after any more it is t. One that ends abnormally in t with f has committed as many,
is then at t, and every further step is f, whose cause stands in t. Conversely, a running engine that steps to the PC 0, or to a
state with a fault's cause, ends there, normally or with that fault. Logs 4, 5, 6, 7, 12, 13 and 23 hold the spec's decisions on
the faults, on what they leave and carry, on RUN and on ICOUNT (D1 to D4, D9 to D11, D22). -/
def Obligations.TheEndOfARunIsUnique : Prop :=
  (∀ s t t' e e', GoesTo s t e → GoesTo s t' e' → t = t' ∧ e = e') ∧
  (∀ s t r, ¬ GoesTo s t (.refused r)) ∧
  (∀ s t, s.run = true → EndsNormally s t → t.pc = 0x0000#16 ∧ t.run = false ∧ s.icount ≤ t.icount ∧
    steps (t.icount - s.icount) s = .next (t.setRun true) ∧
    ∀ k, t.icount - s.icount < k → steps k s = .next t) ∧
  (∀ s t f, s.run = true → EndsAbnormally s t f → t.pc ≠ 0x0000#16 ∧ t.run = true ∧ s.icount ≤ t.icount ∧
    FaultCause t f ∧ steps (t.icount - s.icount) s = .next t ∧
    ∀ k, t.icount - s.icount < k → steps k s = .fault f) ∧
  ∀ s t k, steps k s = .next t → t.run = true →
    (t.pc = 0x0000#16 → EndsNormally s (t.setRun false)) ∧
      ∀ f, t.pc ≠ 0x0000#16 → FaultCause t f → EndsAbnormally s t f
end

