-- ==== Sys2Proof/Laws/Decode.lean ====
section
/-!
SUPPORT. Slices, register fields and masks: what the decoder reads from a word, from the word's bits.
-/

namespace Sys2Proof

@[simp] theorem regOfField_fieldOfReg (r : RegNum) : regOfField (fieldOfReg r) = r := rfl

@[simp] theorem fieldOfReg_regOfField (f : BitVec 3) : fieldOfReg (regOfField f) = f := rfl

@[simp] theorem getLsbD_slice (w : Word) (lo n i : Nat) :
    (slice w lo n).getLsbD i = (decide (i < n) && w.getLsbD (lo + i)) := by
  simp [slice, BitVec.getLsbD_extractLsb']

/-- A slice as a number: the spec's `w[hi:lo]` (R8). -/
theorem toNat_slice (w : Word) (lo n : Nat) : (slice w lo n).toNat = w.toNat / 2 ^ lo % 2 ^ n := by
  simp [slice, Nat.shiftRight_eq_div_pow]

/-- The register number in a slice, as a number. -/
theorem val_regOfField_slice (w : Word) (lo : Nat) : (regOfField (slice w lo 3)).val = w.toNat / 2 ^ lo % 8 :=
  toNat_slice w lo 3

/-- Two slices are equal when the words agree on the slice's bits. -/
theorem slice_congr {w w' : Word} {lo n : Nat} (h : ∀ i, i < n → w.getLsbD (lo + i) = w'.getLsbD (lo + i)) :
    slice w lo n = slice w' lo n := by
  apply BitVec.eq_of_getLsbD_eq
  intro i hi
  rw [getLsbD_slice, getLsbD_slice, h i hi]

/-- The bits of a placed field. -/
theorem getLsbD_place {n : Nat} (f : BitVec n) (lo i : Nat) :
    (place f lo).getLsbD i = (decide (i < 16) && (decide (lo ≤ i) && f.getLsbD (i - lo))) := by
  unfold place
  by_cases h : i < 16
  · by_cases hl : lo ≤ i
    · simp [h, hl, Nat.not_lt.2 hl]
    · simp [h, hl, Nat.lt_of_not_le hl]
  · simp [h]

theorem slice_or (a b : Word) (lo n : Nat) : slice (a ||| b) lo n = slice a lo n ||| slice b lo n := by
  apply BitVec.eq_of_getLsbD_eq
  intro i hi
  simp only [getLsbD_slice, BitVec.getLsbD_or, hi, decide_true, Bool.true_and]

/-- A field is read back from where it was placed. -/
theorem slice_place_self {n : Nat} (f : BitVec n) {lo : Nat} (h : lo + n ≤ 16) : slice (place f lo) lo n = f := by
  apply BitVec.eq_of_getLsbD_eq
  intro i hi
  simp only [getLsbD_slice, getLsbD_place, hi, (by omega : lo + i < 16), (by omega : lo ≤ lo + i), decide_true,
    Bool.true_and, Nat.add_sub_cancel_left]

/-- A field placed elsewhere leaves a slice 0. -/
theorem slice_place_disjoint {m : Nat} (f : BitVec m) {lo' lo n : Nat} (h : lo' + m ≤ lo ∨ lo + n ≤ lo') :
    slice (place f lo') lo n = 0#n := by
  apply BitVec.eq_of_getLsbD_eq
  intro i hi
  rw [getLsbD_slice, getLsbD_place, BitVec.getLsbD_zero]
  rcases h with h | h
  · rw [BitVec.getLsbD_of_ge f _ (by omega)]; simp
  · rw [decide_eq_false (by omega : ¬ lo' ≤ lo + i)]; simp

/-- A slice of a numeral, by division. -/
theorem slice_ofNat (x : Nat) {lo n : Nat} (h : lo + n ≤ 16) :
    slice (BitVec.ofNat 16 x) lo n = BitVec.ofNat n (x / 2 ^ lo) := by
  apply BitVec.eq_of_getLsbD_eq
  intro i hi
  rw [getLsbD_slice, BitVec.getLsbD_ofNat, BitVec.getLsbD_ofNat, Nat.testBit_div_two_pow, Nat.add_comm lo i]
  simp [hi, (by omega : i + lo < 16)]

/-- A word masked by a row's mask, from its bits. -/
theorem and_mask_eq {w mask m : Word} (h : ∀ k, k < 16 → (w.getLsbD k && mask.getLsbD k) = m.getLsbD k) :
    w &&& mask = m :=
  BitVec.eq_of_getLsbD_eq fun k hk => by rw [BitVec.getLsbD_and, h k hk]

/-- A word that matches a row's pattern has the pattern's bit wherever the mask has a 1. -/
theorem getLsbD_of_and_mask {w mask m : Word} (h : w &&& mask = m) {i : Nat} (hi : mask.getLsbD i = true) :
    w.getLsbD i = m.getLsbD i := by
  rw [← h, BitVec.getLsbD_and, hi, Bool.and_true]

/-- The opcode a word names, from its bits 15 to 12. -/
theorem opcodeOf_decodeFields (w : Word) :
    opcodeOf (decodeFields w).opcode =
      opcodeOfBits (w.getLsbD 15) (w.getLsbD 14) (w.getLsbD 13) (w.getLsbD 12) := by
  simp only [opcodeOf, decodeFields, getLsbD_slice]
  rfl

/-- Decoding, with the opcode read from the word's top bits. -/
theorem decode_of_opcodeBits {w : Word} {b15 b14 b13 b12 : Bool} (h15 : w.getLsbD 15 = b15) (h14 : w.getLsbD 14 = b14)
    (h13 : w.getLsbD 13 = b13) (h12 : w.getLsbD 12 = b12) :
    opcodeOf (decodeFields w).opcode = opcodeOfBits b15 b14 b13 b12 := by
  rw [opcodeOf_decodeFields, h15, h14, h13, h12]

/-- The opcode of a word that matches a row whose mask covers the opcode field. -/
theorem opcodeOf_of_and_mask {w mask m : Word} (h : w &&& mask = m)
    (hm : mask.getLsbD 15 = true ∧ mask.getLsbD 14 = true ∧ mask.getLsbD 13 = true ∧ mask.getLsbD 12 = true)
    (o : Opcode) (ho : opcodeOfBits (m.getLsbD 15) (m.getLsbD 14) (m.getLsbD 13) (m.getLsbD 12) = o) :
    opcodeOf (decodeFields w).opcode = o :=
  (decode_of_opcodeBits (getLsbD_of_and_mask h hm.1) (getLsbD_of_and_mask h hm.2.1) (getLsbD_of_and_mask h hm.2.2.1)
    (getLsbD_of_and_mask h hm.2.2.2)).trans ho

/-- The twelve low bits a reserved instruction keeps are bits 11:0 of the word. -/
theorem lowTwelve_decodeFields (w : Word) : lowTwelve (decodeFields w) = slice w 0 12 := by
  apply BitVec.eq_of_getLsbD_eq
  intro i hi
  interval_cases i <;> simp [lowTwelve, decodeFields, slice]

/-- The row of an opcode, with the bits that select its operand form: immflag (bit 5) and jsrflag (bit 11) (R86). -/
def rowOfOpcode (immflag jsrflag : Bool) : Opcode → Row
  | .br => (Instr.br false false false 0).row
  | .add => if immflag then (Instr.addImm 0 0 0).row else (Instr.addReg 0 0 0).row
  | .ld => (Instr.ld 0 0).row
  | .st => (Instr.st 0 0).row
  | .jsr => if jsrflag then (Instr.jsr 0).row else (Instr.jsrr 0).row
  | .and => if immflag then (Instr.andImm 0 0 0).row else (Instr.andReg 0 0 0).row
  | .ldr => (Instr.ldr 0 0 0).row
  | .str => (Instr.str 0 0 0).row
  | .rti => Instr.rti.row
  | .not => (Instr.not 0 0).row
  | .ldi => (Instr.ldi 0 0).row
  | .sti => (Instr.sti 0 0).row
  | .jmp => (Instr.jmp 0).row
  | .reserved => (Instr.reservedD 0).row
  | .lea => (Instr.lea 0 0).row
  | .trap => (Instr.trap 0).row

/-- The dispatcher's choice lies in the row of the opcode and the two selector bits. -/
theorem row_selectInstr (f : Fields) : (selectInstr f).row = rowOfOpcode f.immflag f.jsrflag (opcodeOf f.opcode) := by
  unfold selectInstr
  cases opcodeOf f.opcode <;> rcases f with ⟨_, _, _, _, _, _ | _, _, _, _, _, _, _, _ | _, _⟩ <;> rfl

/-- The row of a decoded word depends on six of its bits. -/
theorem row_decode (w : Word) :
    (decode w).row = rowOfOpcode (w.getLsbD 5) (w.getLsbD 11)
      (opcodeOfBits (w.getLsbD 15) (w.getLsbD 14) (w.getLsbD 13) (w.getLsbD 12)) := by
  rw [← opcodeOf_decodeFields]
  exact row_selectInstr (decodeFields w)

/-- Every instruction is well formed: "there is no invalid register number" (R21). -/
theorem Instr.wellFormed_eq_true (i : Instr) : i.wellFormed = true := by
  cases i <;> simp [Instr.wellFormed, Instr.registers, Fin.is_lt]

end Sys2Proof
end

