-- ==== Sys2Proof/Laws/Memory.lean ====
section
/-!
SUPPORT. The laws of memory: every operation keeps the canonical form, a read after a write gives the value written, and a
write leaves every other cell alone.
-/

namespace Sys2Proof.Machine

/-! The canonical form, cell by cell. -/

/-- What a listed cell must satisfy on its own: a key that exists, contents an unlisted cell does not have. -/
abbrev CellOk (c : Host.Cell) : Prop := c.1 < 2 * Config.memWords ∧ c.2 ≠ Config.unlistedByte

theorem Memory.wf_iff (m : Memory) :
    m.wf = true ↔ m.Pairwise (fun c d => c.1 < d.1) ∧ ∀ c ∈ m, CellOk c := by
  simp [Memory.wf, List.all_eq_true, CellOk]

theorem Memory.wf_nil : Memory.wf [] = true := by simp [Memory.wf]

theorem Memory.wf_cons (c : Host.Cell) (m : Memory) :
    Memory.wf (c :: m) = true ↔ (∀ d ∈ m, c.1 < d.1) ∧ CellOk c ∧ Memory.wf m = true := by
  simp only [Memory.wf_iff, List.pairwise_cons, List.mem_cons, forall_eq_or_imp]
  tauto

/-- Putting a cell in front of a canonical memory of higher keys keeps the form. -/
theorem Memory.cons_wf {k : Nat} {v : Byte} {m : Memory} (hm : m.wf = true) (hk : k < 2 * Config.memWords)
    (hlt : ∀ d ∈ m, k < d.1) : (Memory.cons k v m).wf = true := by
  unfold Memory.cons
  split
  · exact hm
  · exact (Memory.wf_cons _ _).2 ⟨hlt, ⟨hk, ‹_›⟩, hm⟩

/-- The keys of a memory after a write are its old keys and the key written. -/
theorem Memory.mem_writeByte {m : Memory} {k : Nat} {v : Byte} {c : Host.Cell} (h : c ∈ m.writeByte k v) :
    c ∈ m ∨ c.1 = k := by
  induction m with
  | nil => simp only [Memory.writeByte, Memory.cons] at h; split at h <;> simp_all
  | cons d m ih =>
    simp only [Memory.writeByte, Memory.cons] at h
    split_ifs at h <;> simp only [List.mem_cons] at h ⊢
    · exact .inl h
    · rcases h with rfl | h
      · exact .inr rfl
      · exact .inl h
    · exact .inl (.inr h)
    · rcases h with rfl | h
      · exact .inr rfl
      · exact .inl (.inr h)
    · rcases h with rfl | h
      · exact .inl (.inl rfl)
      · exact (ih h).imp .inr id

theorem Memory.writeByte_wf {m : Memory} {k : Nat} (v : Byte) (hm : m.wf = true) (hk : k < 2 * Config.memWords) :
    (m.writeByte k v).wf = true := by
  induction m with
  | nil => exact Memory.cons_wf Memory.wf_nil hk (by simp)
  | cons c m ih =>
    obtain ⟨hlt, hc, hm'⟩ := (Memory.wf_cons c m).1 hm
    simp only [Memory.writeByte]
    split_ifs with h₁ h₂
    · refine Memory.cons_wf hm hk fun d hd => ?_
      rcases List.mem_cons.1 hd with rfl | hd
      · exact h₁
      · exact h₁.trans (hlt d hd)
    · exact Memory.cons_wf hm' hk fun d hd => h₂ ▸ hlt d hd
    · refine (Memory.wf_cons _ _).2 ⟨fun d hd => ?_, hc, ih hm'⟩
      rcases Memory.mem_writeByte hd with hd | hd
      · exact hlt d hd
      · omega

/-! Reading after writing. -/

/-- A key below every listed one is unlisted. -/
theorem Memory.readByte_of_lt {m : Memory} {k : Nat} (h : ∀ d ∈ m, k < d.1) : m.readByte k = Config.unlistedByte := by
  induction m with
  | nil => rfl
  | cons c m ih =>
    have := h c (by simp)
    simp only [Memory.readByte, if_neg (by omega : ¬ c.1 = k)]
    exact ih fun d hd => h d (by simp [hd])

theorem Memory.cons_readByte_ne {m : Memory} {k j : Nat} (v : Byte) (h : j ≠ k) :
    (Memory.cons k v m).readByte j = m.readByte j := by
  unfold Memory.cons
  split
  · rfl
  · simp [Memory.readByte, Ne.symm h]

theorem Memory.cons_readByte_self {m : Memory} {k : Nat} (v : Byte) (h : ∀ d ∈ m, k < d.1) :
    (Memory.cons k v m).readByte k = v := by
  unfold Memory.cons
  split
  · rename_i hv; rw [Memory.readByte_of_lt h, hv]
  · simp [Memory.readByte]

/-- A write leaves every other cell alone, in any memory. -/
theorem Memory.readByte_writeByte_ne (m : Memory) {k j : Nat} (v : Byte) (h : j ≠ k) :
    (m.writeByte k v).readByte j = m.readByte j := by
  induction m with
  | nil => exact Memory.cons_readByte_ne v h
  | cons c m ih =>
    simp only [Memory.writeByte]
    split_ifs with h₁ h₂
    · exact Memory.cons_readByte_ne v h
    · rw [Memory.cons_readByte_ne v h]
      simp [Memory.readByte, if_neg (by omega : ¬ c.1 = j)]
    · simp only [Memory.readByte, ih]

/-- A read after a write to the same cell gives the value written. -/
theorem Memory.readByte_writeByte_self {m : Memory} (k : Nat) (v : Byte) (hm : m.wf = true) :
    (m.writeByte k v).readByte k = v := by
  induction m with
  | nil => exact Memory.cons_readByte_self v (by simp)
  | cons c m ih =>
    obtain ⟨hlt, -, hm'⟩ := (Memory.wf_cons c m).1 hm
    simp only [Memory.writeByte]
    split_ifs with h₁ h₂
    · refine Memory.cons_readByte_self v fun d hd => ?_
      rcases List.mem_cons.1 hd with rfl | hd
      · exact h₁
      · exact h₁.trans (hlt d hd)
    · exact Memory.cons_readByte_self v fun d hd => h₂ ▸ hlt d hd
    · simp only [Memory.readByte, if_neg (by omega : ¬ c.1 = k)]
      exact ih hm'

/-! Words. -/

theorem Memory.lowKey_lt {a : Nat} (h : a < Config.memWords) : Memory.lowKey a < 2 * Config.memWords := by
  unfold Memory.lowKey; omega

theorem Memory.highKey_lt {a : Nat} (h : a < Config.memWords) : Memory.highKey a < 2 * Config.memWords := by
  unfold Memory.highKey; omega

theorem Memory.writeWord_wf {m : Memory} {a : Nat} (v : Word) (hm : m.wf = true) (ha : a < Config.memWords) :
    (m.writeWord a v).wf = true :=
  Memory.writeByte_wf _ (Memory.writeByte_wf _ hm (Memory.lowKey_lt ha)) (Memory.highKey_lt ha)

/-- A word write leaves every cell but the word's two alone. -/
theorem Memory.readByte_writeWord_ne (m : Memory) {a k : Nat} (v : Word) (hl : k ≠ Memory.lowKey a)
    (hh : k ≠ Memory.highKey a) : (m.writeWord a v).readByte k = m.readByte k := by
  rw [Memory.writeWord, Memory.readByte_writeByte_ne _ _ hh, Memory.readByte_writeByte_ne _ _ hl]

/-- A word write leaves every other word alone. -/
theorem Memory.readWord_writeWord_ne (m : Memory) {a b : Nat} (v : Word) (h : b ≠ a) :
    (m.writeWord a v).readWord b = m.readWord b := by
  have h₁ : Memory.lowKey b ≠ Memory.lowKey a := by unfold Memory.lowKey; omega
  have h₂ : Memory.lowKey b ≠ Memory.highKey a := by unfold Memory.lowKey Memory.highKey; omega
  have h₃ : Memory.highKey b ≠ Memory.lowKey a := by unfold Memory.lowKey Memory.highKey; omega
  have h₄ : Memory.highKey b ≠ Memory.highKey a := by unfold Memory.highKey; omega
  simp only [Memory.readWord, Memory.readByte_writeWord_ne _ _ h₁ h₂, Memory.readByte_writeWord_ne _ _ h₃ h₄]

theorem append_of_halves (v : Word) : v.extractLsb' 8 8 ++ v.extractLsb' 0 8 = v := by
  apply BitVec.eq_of_getLsbD_eq
  intro i hi
  simp only [BitVec.getLsbD_append, BitVec.getLsbD_extractLsb']
  by_cases h : i < 8
  · simp [h]
  · have : i - 8 < 8 := by omega
    simp [h, this, (by omega : 8 + (i - 8) = i)]

/-- A read of a word after a write to the same address gives the word written. -/
theorem Memory.readWord_writeWord_self {m : Memory} {a : Nat} (v : Word) (hm : m.wf = true)
    (ha : a < Config.memWords) : (m.writeWord a v).readWord a = v := by
  have hne : Memory.lowKey a ≠ Memory.highKey a := by unfold Memory.lowKey Memory.highKey; omega
  have hwf := Memory.writeByte_wf (v.extractLsb' 0 8) hm (Memory.lowKey_lt ha)
  simp only [Memory.readWord, Memory.writeWord]
  rw [Memory.readByte_writeByte_self _ _ hwf, Memory.readByte_writeByte_ne _ _ hne, Memory.readByte_writeByte_self _ _ hm]
  exact append_of_halves v

/-! Images. -/

theorem Memory.writeImage_wf (ws : List Word) : ∀ {m : Memory} {a : Nat}, m.wf = true →
    a + ws.length ≤ Config.memWords → (m.writeImage a ws).wf = true := by
  induction ws with
  | nil => intro m a hm _; exact hm
  | cons w ws ih =>
    intro m a hm ha
    simp only [List.length_cons] at ha
    exact ih (Memory.writeWord_wf w hm (by omega)) (by omega)

/-- An image's words leave every word outside its addresses alone. -/
theorem Memory.readWord_writeImage_ne (ws : List Word) : ∀ (m : Memory) (a b : Nat), b < a ∨ a + ws.length ≤ b →
    (m.writeImage a ws).readWord b = m.readWord b := by
  induction ws with
  | nil => intro m a b _; rfl
  | cons w ws ih =>
    intro m a b h
    simp only [List.length_cons] at h
    rw [Memory.writeImage, ih _ _ _ (by omega), Memory.readWord_writeWord_ne _ _ (by omega)]

/-- An image's words read back from the addresses they were written to. -/
theorem Memory.readWord_writeImage (ws : List Word) : ∀ {m : Memory} {a : Nat}, m.wf = true →
    a + ws.length ≤ Config.memWords → ∀ i (h : i < ws.length), (m.writeImage a ws).readWord (a + i) = ws[i] := by
  induction ws with
  | nil => intro m a _ _ i h; simp at h
  | cons w ws ih =>
    intro m a hm ha i h
    simp only [List.length_cons] at ha h
    cases i with
    | zero =>
      rw [Memory.writeImage, Memory.readWord_writeImage_ne _ _ _ _ (by omega)]
      exact Memory.readWord_writeWord_self _ hm (by omega)
    | succ i =>
      have := ih (a := a + 1) (Memory.writeWord_wf w hm (by omega : a < _)) (by omega) i (by omega)
      rw [Memory.writeImage, (by omega : a + (i + 1) = a + 1 + i), this, List.getElem_cons_succ]

end Sys2Proof.Machine
end

