-- ==== Sys2Proof/Laws/Operands.lean ====
section
/-!
SUPPORT. What the sign extender, the adder and the flag updater compute, in Lean's own terms.
-/

namespace Sys2Proof.Machine

/-- The spec's sign extension (R110) is the two's complement reading of a bit vector. -/
theorem sext_eq_toInt {n : Nat} (v : BitVec n) : sext v = v.toInt := by
  unfold sext
  rw [BitVec.toInt_eq_msb_cond]
  split <;> simp

theorem toInt_to16 (i : Int) : (to16 i).toInt = i.bmod 65536 := by simp [to16, BitVec.toInt_ofInt]

/-- A reduced integer as a number (R9). -/
theorem toNat_to16 (i : Int) : ((to16 i).toNat : Int) = i % 65536 := by
  simp only [to16, BitVec.toNat_ofInt]
  omega

theorem add16_eq_to16 {wa wb : Nat} (a : BitVec wa) (b : BitVec wb) : add16 a b = to16 (a.toInt + b.toInt) := by
  simp [add16, sext_eq_toInt]

/-- `add16` as a number (R111). -/
theorem toNat_add16 {wa wb : Nat} (a : BitVec wa) (b : BitVec wb) :
    ((add16 a b).toNat : Int) = (a.toInt + b.toInt) % 65536 := by
  rw [add16_eq_to16, toNat_to16]

/-- The signed and the unsigned reading of a word agree modulo 65536. -/
theorem toInt_emod (w : Word) : w.toInt % 65536 = w.toNat := by
  have := w.isLt
  rw [BitVec.toInt_eq_toNat_cond]
  split <;> omega

/-- The adder with a word on the left reads that word unsigned (R111). -/
theorem toNat_add16_word {n : Nat} (a : Word) (b : BitVec n) :
    ((add16 a b).toNat : Int) = (a.toNat + b.toInt) % 65536 := by
  rw [toNat_add16, ← toInt_emod a]
  omega

theorem updateFlags_n (v : Word) : (updateFlags v).1 = true ↔ 0x8000 ≤ v.toNat := by
  have hb : v.getLsbD 15 = decide (0x8000 ≤ v.toNat) := by
    have := BitVec.msb_eq_decide v
    simpa [BitVec.msb_eq_getLsbD_last] using this
  unfold updateFlags
  split
  · rename_i h; simp [h]
  · split <;> simp_all

theorem updateFlags_z (v : Word) : (updateFlags v).2.1 = true ↔ v.toNat = 0 := by
  unfold updateFlags
  split
  · rename_i h; simp [h]
  · rename_i h
    have : v.toNat ≠ 0 := fun hv => h (BitVec.eq_of_toNat_eq (by simpa using hv))
    split <;> simp_all

theorem updateFlags_p (v : Word) : (updateFlags v).2.2 = true ↔ 0x0001 ≤ v.toNat ∧ v.toNat ≤ 0x7FFF := by
  have hb : v.getLsbD 15 = decide (0x8000 ≤ v.toNat) := by
    have := BitVec.msb_eq_decide v
    simpa [BitVec.msb_eq_getLsbD_last] using this
  unfold updateFlags
  split
  · rename_i h; simp [h]
  · rename_i h
    have h0 : v.toNat ≠ 0 := fun hv => h (BitVec.eq_of_toNat_eq (by simpa using hv))
    split <;> simp_all <;> omega

end Sys2Proof.Machine
end

