-- ==== Sys2Proof/Laws/State.lean ====
section
/-!
SUPPORT. One lemma per field of the state per named update, so that no later proof unfolds a record update; and reads of the
register file after each update.
-/

namespace Sys2Proof.Machine

variable (s : State)

/-! `setReg`. -/

@[simp] theorem State.setReg_pc (r : RegNum) (v : Word) : (s.setReg r v).pc = s.pc := rfl
@[simp] theorem State.setReg_n (r : RegNum) (v : Word) : (s.setReg r v).n = s.n := rfl
@[simp] theorem State.setReg_z (r : RegNum) (v : Word) : (s.setReg r v).z = s.z := rfl
@[simp] theorem State.setReg_p (r : RegNum) (v : Word) : (s.setReg r v).p = s.p := rfl
@[simp] theorem State.setReg_mem (r : RegNum) (v : Word) : (s.setReg r v).mem = s.mem := rfl
@[simp] theorem State.setReg_run (r : RegNum) (v : Word) : (s.setReg r v).run = s.run := rfl
@[simp] theorem State.setReg_icount (r : RegNum) (v : Word) : (s.setReg r v).icount = s.icount := rfl

/-! `setPc`. -/

@[simp] theorem State.setPc_x (t : Word) : (s.setPc t).x = s.x := rfl
@[simp] theorem State.setPc_pc (t : Word) : (s.setPc t).pc = t := rfl
@[simp] theorem State.setPc_n (t : Word) : (s.setPc t).n = s.n := rfl
@[simp] theorem State.setPc_z (t : Word) : (s.setPc t).z = s.z := rfl
@[simp] theorem State.setPc_p (t : Word) : (s.setPc t).p = s.p := rfl
@[simp] theorem State.setPc_mem (t : Word) : (s.setPc t).mem = s.mem := rfl
@[simp] theorem State.setPc_run (t : Word) : (s.setPc t).run = s.run := rfl
@[simp] theorem State.setPc_icount (t : Word) : (s.setPc t).icount = s.icount := rfl
@[simp] theorem State.setPc_getReg (t : Word) (r : RegNum) : (s.setPc t).getReg r = s.getReg r := rfl

/-! `advance`. -/

@[simp] theorem State.advance_x : s.advance.x = s.x := rfl
@[simp] theorem State.advance_pc : s.advance.pc = s.pc + 1#16 := rfl
@[simp] theorem State.advance_n : s.advance.n = s.n := rfl
@[simp] theorem State.advance_z : s.advance.z = s.z := rfl
@[simp] theorem State.advance_p : s.advance.p = s.p := rfl
@[simp] theorem State.advance_mem : s.advance.mem = s.mem := rfl
@[simp] theorem State.advance_run : s.advance.run = s.run := rfl
@[simp] theorem State.advance_icount : s.advance.icount = s.icount := rfl
@[simp] theorem State.advance_getReg (r : RegNum) : s.advance.getReg r = s.getReg r := rfl

/-! `setMem`. -/

@[simp] theorem State.setMem_x (m : Memory) : (s.setMem m).x = s.x := rfl
@[simp] theorem State.setMem_pc (m : Memory) : (s.setMem m).pc = s.pc := rfl
@[simp] theorem State.setMem_n (m : Memory) : (s.setMem m).n = s.n := rfl
@[simp] theorem State.setMem_z (m : Memory) : (s.setMem m).z = s.z := rfl
@[simp] theorem State.setMem_p (m : Memory) : (s.setMem m).p = s.p := rfl
@[simp] theorem State.setMem_mem (m : Memory) : (s.setMem m).mem = m := rfl
@[simp] theorem State.setMem_run (m : Memory) : (s.setMem m).run = s.run := rfl
@[simp] theorem State.setMem_icount (m : Memory) : (s.setMem m).icount = s.icount := rfl
@[simp] theorem State.setMem_getReg (m : Memory) (r : RegNum) : (s.setMem m).getReg r = s.getReg r := rfl

/-! `setRun`. -/

@[simp] theorem State.setRun_x (b : Bool) : (s.setRun b).x = s.x := rfl
@[simp] theorem State.setRun_pc (b : Bool) : (s.setRun b).pc = s.pc := rfl
@[simp] theorem State.setRun_n (b : Bool) : (s.setRun b).n = s.n := rfl
@[simp] theorem State.setRun_z (b : Bool) : (s.setRun b).z = s.z := rfl
@[simp] theorem State.setRun_p (b : Bool) : (s.setRun b).p = s.p := rfl
@[simp] theorem State.setRun_mem (b : Bool) : (s.setRun b).mem = s.mem := rfl
@[simp] theorem State.setRun_run (b : Bool) : (s.setRun b).run = b := rfl
@[simp] theorem State.setRun_icount (b : Bool) : (s.setRun b).icount = s.icount := rfl
@[simp] theorem State.setRun_getReg (b : Bool) (r : RegNum) : (s.setRun b).getReg r = s.getReg r := rfl

/-! `countOne`. -/

@[simp] theorem State.countOne_x : s.countOne.x = s.x := rfl
@[simp] theorem State.countOne_pc : s.countOne.pc = s.pc := rfl
@[simp] theorem State.countOne_n : s.countOne.n = s.n := rfl
@[simp] theorem State.countOne_z : s.countOne.z = s.z := rfl
@[simp] theorem State.countOne_p : s.countOne.p = s.p := rfl
@[simp] theorem State.countOne_mem : s.countOne.mem = s.mem := rfl
@[simp] theorem State.countOne_run : s.countOne.run = s.run := rfl
@[simp] theorem State.countOne_icount : s.countOne.icount = s.icount + 1 := rfl
@[simp] theorem State.countOne_getReg (r : RegNum) : s.countOne.getReg r = s.getReg r := rfl

/-! `setcc`. -/

@[simp] theorem State.setcc_x (v : Word) : (s.setcc v).x = s.x := rfl
@[simp] theorem State.setcc_pc (v : Word) : (s.setcc v).pc = s.pc := rfl
@[simp] theorem State.setcc_n (v : Word) : (s.setcc v).n = (updateFlags v).1 := rfl
@[simp] theorem State.setcc_z (v : Word) : (s.setcc v).z = (updateFlags v).2.1 := rfl
@[simp] theorem State.setcc_p (v : Word) : (s.setcc v).p = (updateFlags v).2.2 := rfl
@[simp] theorem State.setcc_mem (v : Word) : (s.setcc v).mem = s.mem := rfl
@[simp] theorem State.setcc_run (v : Word) : (s.setcc v).run = s.run := rfl
@[simp] theorem State.setcc_icount (v : Word) : (s.setcc v).icount = s.icount := rfl
@[simp] theorem State.setcc_getReg (v : Word) (r : RegNum) : (s.setcc v).getReg r = s.getReg r := rfl

/-! `writeResult`. -/

@[simp] theorem State.writeResult_pc (dr : RegNum) (v : Word) : (s.writeResult dr v).pc = s.pc + 1#16 := rfl
@[simp] theorem State.writeResult_n (dr : RegNum) (v : Word) : (s.writeResult dr v).n = (updateFlags v).1 := rfl
@[simp] theorem State.writeResult_z (dr : RegNum) (v : Word) : (s.writeResult dr v).z = (updateFlags v).2.1 := rfl
@[simp] theorem State.writeResult_p (dr : RegNum) (v : Word) : (s.writeResult dr v).p = (updateFlags v).2.2 := rfl
@[simp] theorem State.writeResult_mem (dr : RegNum) (v : Word) : (s.writeResult dr v).mem = s.mem := rfl
@[simp] theorem State.writeResult_run (dr : RegNum) (v : Word) : (s.writeResult dr v).run = s.run := rfl
@[simp] theorem State.writeResult_icount (dr : RegNum) (v : Word) : (s.writeResult dr v).icount = s.icount := rfl

/-! Reads of the register file. -/

theorem State.setReg_getReg (d r : RegNum) (v : Word) :
    (s.setReg d v).getReg r = if d = r then v else s.getReg r := by
  simp only [State.getReg, State.setReg, Vector.getElem_set, Fin.val_inj]

@[simp] theorem State.setReg_getReg_self (d : RegNum) (v : Word) : (s.setReg d v).getReg d = v := by
  simp [State.setReg_getReg]

theorem State.setReg_getReg_ne {d r : RegNum} (v : Word) (h : r ≠ d) : (s.setReg d v).getReg r = s.getReg r := by
  simp [State.setReg_getReg, Ne.symm h]

theorem State.writeResult_getReg (d r : RegNum) (v : Word) :
    (s.writeResult d v).getReg r = if d = r then v else s.getReg r := by
  simp [State.writeResult, State.setReg_getReg]

@[simp] theorem State.writeResult_getReg_self (d : RegNum) (v : Word) : (s.writeResult d v).getReg d = v := by
  simp [State.writeResult_getReg]

theorem State.writeResult_getReg_ne {d r : RegNum} (v : Word) (h : r ≠ d) :
    (s.writeResult d v).getReg r = s.getReg r := by
  simp [State.writeResult_getReg, Ne.symm h]

@[simp] theorem State.apc_eq : s.apc = s.pc + 1#16 := rfl

end Sys2Proof.Machine
end

