-- ==== Sys2Proof/Laws/Exec.lean ====
section
/-!
SUPPORT. One lemma per shared operation that says everything it can do, and what each memory-accessing meaning does on each
of its paths. Provers cite these instead of unfolding the meanings.
-/

namespace Sys2Proof.Machine

/-! The shared operations. -/

@[simp] theorem inRange_iff (a : Word) : inRange a = true ↔ a.toNat < 32768 :=
  decide_eq_true_iff (p := a.toNat < Config.memWords)

theorem memRead_ok {s : State} {k : AccessKind} {a : Word} (h : a.toNat < 32768) :
    s.memRead k a = .ok (s.mem.readWord a.toNat) := by
  simp [State.memRead, (inRange_iff a).2 h]

theorem memRead_error {s : State} {k : AccessKind} {a : Word} (h : 32768 ≤ a.toNat) :
    s.memRead k a = .error (.outOfBounds a k) := by
  simp [State.memRead, Nat.not_lt.2 h]

/-- Everything `memRead` can do. -/
theorem memRead_cases (s : State) (k : AccessKind) (a : Word) :
    (a.toNat < 32768 ∧ s.memRead k a = .ok (s.mem.readWord a.toNat)) ∨
      (32768 ≤ a.toNat ∧ s.memRead k a = .error (.outOfBounds a k)) :=
  (Nat.lt_or_ge a.toNat 32768).imp (fun h => ⟨h, memRead_ok h⟩) fun h => ⟨h, memRead_error h⟩

theorem memWrite_ok {t : State} {a v : Word} (h : a.toNat < 32768) :
    t.memWrite a v = .ok (t.setMem (t.mem.writeWord a.toNat v)) := by
  simp [State.memWrite, (inRange_iff a).2 h]

theorem memWrite_error {t : State} {a v : Word} (h : 32768 ≤ a.toNat) :
    t.memWrite a v = .error (.outOfBounds a .write) := by
  simp [State.memWrite, Nat.not_lt.2 h]

/-- Everything `memWrite` can do. -/
theorem memWrite_cases (t : State) (a v : Word) :
    (a.toNat < 32768 ∧ t.memWrite a v = .ok (t.setMem (t.mem.writeWord a.toNat v))) ∨
      (32768 ≤ a.toNat ∧ t.memWrite a v = .error (.outOfBounds a .write)) :=
  (Nat.lt_or_ge a.toNat 32768).imp (fun h => ⟨h, memWrite_ok h⟩) fun h => ⟨h, memWrite_error h⟩

@[simp] theorem withRead_ok (v : Word) (k : Word → Host.Outcome State Fault Refusal) : withRead (.ok v) k = k v := rfl

@[simp] theorem withRead_error (f : Fault) (k : Word → Host.Outcome State Fault Refusal) :
    withRead (.error f) k = .fault f := rfl

@[simp] theorem finishWrite_ok (t : State) : finishWrite (.ok t) = .next t := rfl

@[simp] theorem finishWrite_error (f : Fault) : finishWrite (.error f) = .fault f := rfl

@[simp] theorem finish_eq (t : State) : finish t = .next t := rfl

@[simp] theorem raise_eq (f : Fault) : raise f = .fault f := rfl

/-! The meanings that access memory, on each of their paths. -/

section

variable {s : State} {r b : RegNum} {off9 : BitVec 9} {off6 : BitVec 6}

theorem execLd_inRange (h : (pcRel9 s off9).toNat < 32768) :
    execLd r off9 s = .next (s.writeResult r (s.mem.readWord (pcRel9 s off9).toNat)) := by
  simp [execLd, memRead_ok h]

theorem execLd_outOfRange (h : 32768 ≤ (pcRel9 s off9).toNat) :
    execLd r off9 s = .fault (.outOfBounds (pcRel9 s off9) .read) := by
  simp [execLd, memRead_error h]

theorem execLdr_inRange (h : (baseOff6 s b off6).toNat < 32768) :
    execLdr r b off6 s = .next (s.writeResult r (s.mem.readWord (baseOff6 s b off6).toNat)) := by
  simp [execLdr, memRead_ok h]

theorem execLdr_outOfRange (h : 32768 ≤ (baseOff6 s b off6).toNat) :
    execLdr r b off6 s = .fault (.outOfBounds (baseOff6 s b off6) .read) := by
  simp [execLdr, memRead_error h]

theorem execLdi_inRange (h : (pcRel9 s off9).toNat < 32768)
    (hp : (s.mem.readWord (pcRel9 s off9).toNat).toNat < 32768) :
    execLdi r off9 s =
      .next (s.writeResult r (s.mem.readWord (s.mem.readWord (pcRel9 s off9).toNat).toNat)) := by
  simp [execLdi, memRead_ok h, memRead_ok hp]

theorem execLdi_pointerOutOfRange (h : (pcRel9 s off9).toNat < 32768)
    (hp : 32768 ≤ (s.mem.readWord (pcRel9 s off9).toNat).toNat) :
    execLdi r off9 s = .fault (.outOfBounds (s.mem.readWord (pcRel9 s off9).toNat) .read) := by
  simp [execLdi, memRead_ok h, memRead_error hp]

theorem execLdi_outOfRange (h : 32768 ≤ (pcRel9 s off9).toNat) :
    execLdi r off9 s = .fault (.outOfBounds (pcRel9 s off9) .read) := by
  simp [execLdi, memRead_error h]

theorem execSt_inRange (h : (pcRel9 s off9).toNat < 32768) :
    execSt r off9 s = .next (s.advance.setMem (s.mem.writeWord (pcRel9 s off9).toNat (s.getReg r))) := by
  simp [execSt, memWrite_ok h]

theorem execSt_outOfRange (h : 32768 ≤ (pcRel9 s off9).toNat) :
    execSt r off9 s = .fault (.outOfBounds (pcRel9 s off9) .write) := by
  simp [execSt, memWrite_error h]

theorem execStr_inRange (h : (baseOff6 s b off6).toNat < 32768) :
    execStr r b off6 s = .next (s.advance.setMem (s.mem.writeWord (baseOff6 s b off6).toNat (s.getReg r))) := by
  simp [execStr, memWrite_ok h]

theorem execStr_outOfRange (h : 32768 ≤ (baseOff6 s b off6).toNat) :
    execStr r b off6 s = .fault (.outOfBounds (baseOff6 s b off6) .write) := by
  simp [execStr, memWrite_error h]

theorem execSti_inRange (h : (pcRel9 s off9).toNat < 32768)
    (hp : (s.mem.readWord (pcRel9 s off9).toNat).toNat < 32768) :
    execSti r off9 s =
      .next (s.advance.setMem (s.mem.writeWord (s.mem.readWord (pcRel9 s off9).toNat).toNat (s.getReg r))) := by
  simp [execSti, memRead_ok h, memWrite_ok hp]

theorem execSti_pointerOutOfRange (h : (pcRel9 s off9).toNat < 32768)
    (hp : 32768 ≤ (s.mem.readWord (pcRel9 s off9).toNat).toNat) :
    execSti r off9 s = .fault (.outOfBounds (s.mem.readWord (pcRel9 s off9).toNat) .write) := by
  simp [execSti, memRead_ok h, memWrite_error hp]

theorem execSti_outOfRange (h : 32768 ≤ (pcRel9 s off9).toNat) :
    execSti r off9 s = .fault (.outOfBounds (pcRel9 s off9) .read) := by
  simp [execSti, memRead_error h]

/-! Inversion: what a memory-accessing meaning did when it gave a next state. -/

variable {t : State}

theorem withRead_next_inv {k : AccessKind} {a : Word} {f : Word → Host.Outcome State Fault Refusal}
    (h : withRead (s.memRead k a) f = .next t) : a.toNat < 32768 ∧ f (s.mem.readWord a.toNat) = .next t := by
  rcases memRead_cases s k a with ⟨ha, hr⟩ | ⟨-, hr⟩ <;> rw [hr] at h
  · exact ⟨ha, h⟩
  · cases h

theorem finishWrite_next_inv {u : State} {a v : Word} (h : finishWrite (u.memWrite a v) = .next t) :
    a.toNat < 32768 ∧ t = u.setMem (u.mem.writeWord a.toNat v) := by
  rcases memWrite_cases u a v with ⟨ha, hr⟩ | ⟨-, hr⟩ <;> rw [hr] at h <;> cases h
  exact ⟨ha, rfl⟩

theorem execLd_next_inv (h : execLd r off9 s = .next t) :
    (pcRel9 s off9).toNat < 32768 ∧ t = s.writeResult r (s.mem.readWord (pcRel9 s off9).toNat) := by
  obtain ⟨ha, h⟩ := withRead_next_inv h
  cases h
  exact ⟨ha, rfl⟩

theorem execLdr_next_inv (h : execLdr r b off6 s = .next t) :
    (baseOff6 s b off6).toNat < 32768 ∧ t = s.writeResult r (s.mem.readWord (baseOff6 s b off6).toNat) := by
  obtain ⟨ha, h⟩ := withRead_next_inv h
  cases h
  exact ⟨ha, rfl⟩

theorem execLdi_next_inv (h : execLdi r off9 s = .next t) :
    (pcRel9 s off9).toNat < 32768 ∧ (s.mem.readWord (pcRel9 s off9).toNat).toNat < 32768 ∧
      t = s.writeResult r (s.mem.readWord (s.mem.readWord (pcRel9 s off9).toNat).toNat) := by
  obtain ⟨ha, h⟩ := withRead_next_inv h
  obtain ⟨hp, h⟩ := withRead_next_inv h
  cases h
  exact ⟨ha, hp, rfl⟩

theorem execSt_next_inv (h : execSt r off9 s = .next t) :
    (pcRel9 s off9).toNat < 32768 ∧
      t = s.advance.setMem (s.mem.writeWord (pcRel9 s off9).toNat (s.getReg r)) :=
  finishWrite_next_inv h

theorem execStr_next_inv (h : execStr r b off6 s = .next t) :
    (baseOff6 s b off6).toNat < 32768 ∧
      t = s.advance.setMem (s.mem.writeWord (baseOff6 s b off6).toNat (s.getReg r)) :=
  finishWrite_next_inv h

theorem execSti_next_inv (h : execSti r off9 s = .next t) :
    (pcRel9 s off9).toNat < 32768 ∧ (s.mem.readWord (pcRel9 s off9).toNat).toNat < 32768 ∧
      t = s.advance.setMem (s.mem.writeWord (s.mem.readWord (pcRel9 s off9).toNat).toNat (s.getReg r)) := by
  obtain ⟨ha, h⟩ := withRead_next_inv h
  exact ⟨ha, finishWrite_next_inv h⟩

/-- A branch is taken or not (R160). -/
theorem execBr_next_inv {n z p : Bool} (h : execBr n z p off9 s = .next t) :
    (branchTaken s n z p = true ∧ t = s.advance.setPc (pcRel9 s off9)) ∨
      (branchTaken s n z p = false ∧ t = s.advance) := by
  unfold execBr at h
  split at h <;> cases h
  · exact .inl ⟨‹_›, rfl⟩
  · exact .inr ⟨Bool.eq_false_iff.2 ‹_›, rfl⟩

end

/-! The addresses as numbers. -/

theorem toNat_pcRel9 (s : State) (off : BitVec 9) :
    ((pcRel9 s off).toNat : Int) = (s.pc.toNat + 1 + off.toInt) % 65536 := by
  rw [pcRel9, toNat_add16_word, State.apc_eq, BitVec.toNat_add]
  simp

theorem toNat_pcRel11 (s : State) (off : BitVec 11) :
    ((pcRel11 s off).toNat : Int) = (s.pc.toNat + 1 + off.toInt) % 65536 := by
  rw [pcRel11, toNat_add16_word, State.apc_eq, BitVec.toNat_add]
  simp

theorem toNat_baseOff6 (s : State) (b : RegNum) (off : BitVec 6) :
    ((baseOff6 s b off).toNat : Int) = ((s.getReg b).toNat + off.toInt) % 65536 := by
  rw [baseOff6, toNat_add16_word]

end Sys2Proof.Machine
end

