-- ==== Sys2Proof/Laws/PerInstr.lean ====
section
/-!
SUPPORT. Families of statements about every instruction as syntax, one lemma per constructor.
-/

namespace Sys2Proof.Laws

/-- The encoder's word for an instruction matches the instruction's row of the opcode table (R88), and the instruction is well
formed. -/
def EncodesInRow.Statement (i : Instr) : Prop := encode i &&& i.row.mask = i.row.matchBits ∧ i.wellFormed = true

theorem EncodesInRow.br (n : Bool) (z : Bool) (p : Bool) (off9 : BitVec 9) : EncodesInRow.Statement (.br n z p off9) :=
  ⟨and_mask_eq fun k hk => by
    interval_cases k <;> simp [encode, Instr.row, getLsbD_place, -BitVec.getLsbD_eq_getElem],
    Instr.wellFormed_eq_true _⟩

theorem EncodesInRow.addReg (dr : RegNum) (sr1 : RegNum) (sr2 : RegNum) : EncodesInRow.Statement (.addReg dr sr1 sr2) :=
  ⟨and_mask_eq fun k hk => by
    interval_cases k <;> simp [encode, Instr.row, getLsbD_place, -BitVec.getLsbD_eq_getElem],
    Instr.wellFormed_eq_true _⟩

theorem EncodesInRow.addImm (dr : RegNum) (sr1 : RegNum) (imm5 : BitVec 5) : EncodesInRow.Statement (.addImm dr sr1 imm5) :=
  ⟨and_mask_eq fun k hk => by
    interval_cases k <;> simp [encode, Instr.row, getLsbD_place, -BitVec.getLsbD_eq_getElem],
    Instr.wellFormed_eq_true _⟩

theorem EncodesInRow.ld (dr : RegNum) (off9 : BitVec 9) : EncodesInRow.Statement (.ld dr off9) :=
  ⟨and_mask_eq fun k hk => by
    interval_cases k <;> simp [encode, Instr.row, getLsbD_place, -BitVec.getLsbD_eq_getElem],
    Instr.wellFormed_eq_true _⟩

theorem EncodesInRow.st (sr : RegNum) (off9 : BitVec 9) : EncodesInRow.Statement (.st sr off9) :=
  ⟨and_mask_eq fun k hk => by
    interval_cases k <;> simp [encode, Instr.row, getLsbD_place, -BitVec.getLsbD_eq_getElem],
    Instr.wellFormed_eq_true _⟩

theorem EncodesInRow.jsrr (b : RegNum) : EncodesInRow.Statement (.jsrr b) :=
  ⟨and_mask_eq fun k hk => by
    interval_cases k <;> simp [encode, Instr.row, getLsbD_place, -BitVec.getLsbD_eq_getElem],
    Instr.wellFormed_eq_true _⟩

theorem EncodesInRow.jsr (off11 : BitVec 11) : EncodesInRow.Statement (.jsr off11) :=
  ⟨and_mask_eq fun k hk => by
    interval_cases k <;> simp [encode, Instr.row, getLsbD_place, -BitVec.getLsbD_eq_getElem],
    Instr.wellFormed_eq_true _⟩

theorem EncodesInRow.andReg (dr : RegNum) (sr1 : RegNum) (sr2 : RegNum) : EncodesInRow.Statement (.andReg dr sr1 sr2) :=
  ⟨and_mask_eq fun k hk => by
    interval_cases k <;> simp [encode, Instr.row, getLsbD_place, -BitVec.getLsbD_eq_getElem],
    Instr.wellFormed_eq_true _⟩

theorem EncodesInRow.andImm (dr : RegNum) (sr1 : RegNum) (imm5 : BitVec 5) : EncodesInRow.Statement (.andImm dr sr1 imm5) :=
  ⟨and_mask_eq fun k hk => by
    interval_cases k <;> simp [encode, Instr.row, getLsbD_place, -BitVec.getLsbD_eq_getElem],
    Instr.wellFormed_eq_true _⟩

theorem EncodesInRow.ldr (dr : RegNum) (b : RegNum) (off6 : BitVec 6) : EncodesInRow.Statement (.ldr dr b off6) :=
  ⟨and_mask_eq fun k hk => by
    interval_cases k <;> simp [encode, Instr.row, getLsbD_place, -BitVec.getLsbD_eq_getElem],
    Instr.wellFormed_eq_true _⟩

theorem EncodesInRow.str (sr : RegNum) (b : RegNum) (off6 : BitVec 6) : EncodesInRow.Statement (.str sr b off6) :=
  ⟨and_mask_eq fun k hk => by
    interval_cases k <;> simp [encode, Instr.row, getLsbD_place, -BitVec.getLsbD_eq_getElem],
    Instr.wellFormed_eq_true _⟩

theorem EncodesInRow.rti : EncodesInRow.Statement .rti :=
  ⟨by decide, Instr.wellFormed_eq_true _⟩

theorem EncodesInRow.not (dr : RegNum) (sr : RegNum) : EncodesInRow.Statement (.not dr sr) :=
  ⟨and_mask_eq fun k hk => by
    interval_cases k <;> simp [encode, Instr.row, getLsbD_place, -BitVec.getLsbD_eq_getElem],
    Instr.wellFormed_eq_true _⟩

theorem EncodesInRow.ldi (dr : RegNum) (off9 : BitVec 9) : EncodesInRow.Statement (.ldi dr off9) :=
  ⟨and_mask_eq fun k hk => by
    interval_cases k <;> simp [encode, Instr.row, getLsbD_place, -BitVec.getLsbD_eq_getElem],
    Instr.wellFormed_eq_true _⟩

theorem EncodesInRow.sti (sr : RegNum) (off9 : BitVec 9) : EncodesInRow.Statement (.sti sr off9) :=
  ⟨and_mask_eq fun k hk => by
    interval_cases k <;> simp [encode, Instr.row, getLsbD_place, -BitVec.getLsbD_eq_getElem],
    Instr.wellFormed_eq_true _⟩

theorem EncodesInRow.jmp (b : RegNum) : EncodesInRow.Statement (.jmp b) :=
  ⟨and_mask_eq fun k hk => by
    interval_cases k <;> simp [encode, Instr.row, getLsbD_place, -BitVec.getLsbD_eq_getElem],
    Instr.wellFormed_eq_true _⟩

theorem EncodesInRow.reservedD (low12 : BitVec 12) : EncodesInRow.Statement (.reservedD low12) :=
  ⟨and_mask_eq fun k hk => by
    interval_cases k <;> simp [encode, Instr.row, getLsbD_place, -BitVec.getLsbD_eq_getElem],
    Instr.wellFormed_eq_true _⟩

theorem EncodesInRow.lea (dr : RegNum) (off9 : BitVec 9) : EncodesInRow.Statement (.lea dr off9) :=
  ⟨and_mask_eq fun k hk => by
    interval_cases k <;> simp [encode, Instr.row, getLsbD_place, -BitVec.getLsbD_eq_getElem],
    Instr.wellFormed_eq_true _⟩

theorem EncodesInRow.trap (v : BitVec 8) : EncodesInRow.Statement (.trap v) :=
  ⟨and_mask_eq fun k hk => by
    interval_cases k <;> simp [encode, Instr.row, getLsbD_place, -BitVec.getLsbD_eq_getElem],
    Instr.wellFormed_eq_true _⟩

end Sys2Proof.Laws
end

