-- ==== Sys2Proof/Laws/Step.lean ====
section
/-!
SUPPORT. Everything a cycle and a step can do.
-/

namespace Sys2Proof.Machine

theorem cycle_stopped {s : State} (h : s.run = false) : cycle s = .next (.halted s) := by simp [cycle, h]

theorem cycle_sentinel {s : State} (h : s.run = true) (hp : s.pc = 0#16) :
    cycle s = .next (.halted (s.setRun false)) := by
  simp [cycle, h, hp, Config.haltPc]

theorem cycle_fetchOutOfRange {s : State} (h : s.run = true) (hp : 32768 ≤ s.pc.toNat) :
    cycle s = .fault (.outOfBounds s.pc .fetch) := by
  have h0 : s.pc ≠ 0#16 := fun h => by simp [h] at hp
  simp [cycle, h, h0, Config.haltPc, fetch, memRead_error hp]

theorem cycle_runs {s : State} (h : s.run = true) (h0 : s.pc ≠ 0#16) (hp : s.pc.toNat < 32768) :
    cycle s = runWord (s.mem.readWord s.pc.toNat) s := by
  simp [cycle, h, h0, Config.haltPc, fetch, memRead_ok hp]

/-- The four ways a cycle goes, in the order of R207. -/
theorem cycle_cases (s : State) :
    (s.run = false ∧ cycle s = .next (.halted s)) ∨
    (s.run = true ∧ s.pc = 0#16 ∧ cycle s = .next (.halted (s.setRun false))) ∨
    (s.run = true ∧ 32768 ≤ s.pc.toNat ∧ cycle s = .fault (.outOfBounds s.pc .fetch)) ∨
    (s.run = true ∧ s.pc ≠ 0#16 ∧ s.pc.toNat < 32768 ∧ cycle s = runWord (s.mem.readWord s.pc.toNat) s) := by
  rcases Bool.eq_false_or_eq_true s.run with h | h
  · by_cases h0 : s.pc = 0#16
    · exact .inr (.inl ⟨h, h0, cycle_sentinel h h0⟩)
    · rcases Nat.lt_or_ge s.pc.toNat 32768 with hp | hp
      · exact .inr (.inr (.inr ⟨h, h0, hp, cycle_runs h h0 hp⟩))
      · exact .inr (.inr (.inl ⟨h, hp, cycle_fetchOutOfRange h hp⟩))
  · exact .inl ⟨h, cycle_stopped h⟩

@[simp] theorem outcomeOfCycle_next (e : CycleEnd) : outcomeOfCycle (.next e) = .next e.state := rfl

@[simp] theorem outcomeOfCycle_fault (f : Fault) : outcomeOfCycle (.fault f) = .fault f := rfl

@[simp] theorem outcomeOfCycle_refused (r : Refusal) : outcomeOfCycle (.refused r) = .refused r := rfl

@[simp] theorem CycleEnd.state_committed (s : State) : (CycleEnd.committed s).state = s := rfl

@[simp] theorem CycleEnd.state_halted (s : State) : (CycleEnd.halted s).state = s := rfl

theorem runWord_next {ir : Word} {s t : State} (h : exec (decode ir) s = .next t) :
    runWord ir s = .next (.committed t.countOne) := by simp [runWord, h, commit]

theorem runWord_fault {ir : Word} {s : State} {f : Fault} (h : exec (decode ir) s = .fault f) :
    runWord ir s = .fault f := by simp [runWord, h]

/-- A word's cycle never ends in the halt check, and its next state is the instruction's, counted. -/
theorem runWord_next_inv {ir : Word} {s : State} {e : CycleEnd} (h : runWord ir s = .next e) :
    ∃ t, exec (decode ir) s = .next t ∧ e = .committed t.countOne := by
  unfold runWord at h
  split at h
  · rename_i t ht; cases h; exact ⟨t, ht, rfl⟩
  · cases h
  · cases h

/-- Everything a step that gives a next state can have done. -/
theorem step_next_cases {s u : State} (h : step s = .next u) :
    (s.run = false ∧ u = s) ∨ (s.run = true ∧ s.pc = 0#16 ∧ u = s.setRun false) ∨
    (s.run = true ∧ s.pc ≠ 0#16 ∧ s.pc.toNat < 32768 ∧
      ∃ t, exec (decode (s.mem.readWord s.pc.toNat)) s = .next t ∧ u = t.countOne) := by
  unfold step at h
  rcases cycle_cases s with ⟨h₁, hc⟩ | ⟨h₁, h₂, hc⟩ | ⟨h₁, h₂, hc⟩ | ⟨h₁, h₂, h₃, hc⟩ <;> rw [hc] at h
  · simp at h; exact .inl ⟨h₁, h.symm⟩
  · simp at h; exact .inr (.inl ⟨h₁, h₂, h.symm⟩)
  · simp at h
  · cases hr : runWord (s.mem.readWord s.pc.toNat) s with
    | next e =>
      obtain ⟨t, ht, rfl⟩ := runWord_next_inv hr
      rw [hr] at h
      simp at h
      exact .inr (.inr ⟨h₁, h₂, h₃, t, ht, h.symm⟩)
    | fault f => rw [hr] at h; simp at h
    | refused r => rw [hr] at h; simp at h

end Sys2Proof.Machine
end

