-- ==== Sys2Proof/Laws/Run.lean ====
section
/-!
SUPPORT. Runs: one equation for each way a run and a sequence of steps go on.
-/

namespace Sys2Proof

open Machine

@[simp] theorem steps_zero (s : State) : steps 0 s = .next s := rfl

theorem steps_succ_next {k : Nat} {s t : State} (h : step s = .next t) : steps (k + 1) s = steps k t := by
  have h : core.step s = .next t := h
  simp only [steps, Host.Core.run, h]
  rfl

theorem steps_succ_fault {k : Nat} {s : State} {f : Fault} (h : step s = .fault f) : steps (k + 1) s = .fault f := by
  have h : core.step s = .fault f := h
  simp only [steps, Host.Core.run, h]
  rfl

/-- A state that a step leaves as it is, is left as it is by every number of steps. -/
theorem steps_of_fixed {s : State} (h : step s = .next s) (k : Nat) : steps k s = .next s := by
  induction k with
  | zero => rfl
  | succ k ih => rw [steps_succ_next h, ih]

@[simp] theorem hostRun_zero (s : State) : hostRun 0 s = (s, .ran) := rfl

theorem hostRun_succ_committed {k : Nat} {s t : State} (h : cycle s = .next (.committed t)) :
    hostRun (k + 1) s = hostRun k t := by simp [hostRun, h]

theorem hostRun_succ_halted {k : Nat} {s t : State} (h : cycle s = .next (.halted t)) :
    hostRun (k + 1) s = (t, .halted) := by simp [hostRun, h]

theorem hostRun_succ_fault {k : Nat} {s : State} {f : Fault} (h : cycle s = .fault f) :
    hostRun (k + 1) s = (s, .fault f) := by simp [hostRun, h]

end Sys2Proof
end

