-- ==== Sys2Proof/Tests/Slice0.lean ====
section
/-!
SUPPORT. Tests on fixed values, and for every statement with hypotheses a witness that meets them. Expected values are the
spec's: the vectors of `95_test_vectors.md` and the examples of the rules; where a witness only shows that hypotheses can be
met, its numbers are this file's.
-/

namespace Sys2Proof.Tests

open Machine

/-! Helpers: a small state, and what an outcome holds. -/

/-- A running state with the given PC, flags (N, Z, P), registers and memory words; everything else zero. -/
def mk (pc : Word) (n z p : Bool) (regs : List (RegNum × Word)) (cells : List (Nat × Word)) : State :=
  let base : State := { State.reset with pc := pc, n := n, z := z, p := p, run := true }
  let s := regs.foldl (fun s r => s.setReg r.1 r.2) base
  s.setMem (cells.foldl (fun m c => m.writeWord c.1 c.2) [])

/-- What a test looks at in the next state. -/
def look {α : Type} (f : State → α) : Host.Outcome State Fault Refusal → Option α
  | .next t => some (f t)
  | .fault _ => none
  | .refused _ => none

/-- The fault of an outcome. -/
def faultOf {α : Type} : Host.Outcome α Fault Refusal → Option Fault
  | .next _ => none
  | .fault f => some f
  | .refused _ => none

/-- PC, N, Z, P. -/
def pcAndFlags (t : State) : Word × Bool × Bool × Bool := (t.pc, t.n, t.z, t.p)

/-- A register, then PC, N, Z, P. -/
def reg (r : RegNum) (t : State) : Word × Word × Bool × Bool × Bool := (t.getReg r, pcAndFlags t)

/-- A memory word, then PC, N, Z, P. -/
def word (a : Nat) (t : State) : Word × Word × Bool × Bool × Bool := (t.mem.readWord a, pcAndFlags t)

/-! The form checks: an ill-formed written instruction for each check (R84, R97), and values at the ends of the ranges. -/

theorem test_refuses_imm5 :
    assemble (.addImm 0 0 16) = none ∧ assemble (.addImm 0 0 (-17)) = none ∧ assemble (.andImm 0 0 16) = none ∧
      assemble (.andImm 0 0 (-17)) = none := by decide

theorem test_refuses_offset6 :
    assemble (.ldr 0 0 32) = none ∧ assemble (.ldr 0 0 (-33)) = none ∧ assemble (.str 0 0 32) = none ∧
      assemble (.str 0 0 (-33)) = none := by decide

theorem test_refuses_offset9 :
    assemble (.br true false false 256) = none ∧ assemble (.ld 0 (-257)) = none ∧ assemble (.ldi 0 256) = none ∧
      assemble (.lea 0 (-257)) = none ∧ assemble (.st 0 256) = none ∧ assemble (.sti 0 (-257)) = none := by decide

theorem test_refuses_offset11 : assemble (.jsr 1024) = none ∧ assemble (.jsr (-1025)) = none := by decide

theorem test_refuses_br_without_condition : assemble (.br false false false 0) = none := by decide

theorem test_refuses_wide_vector_and_word : assemble (.trap 256) = none ∧ assemble (.fill 65536) = none := by decide

/-- Programs 1 to 3 of the spec, R97's fields, and both ends of a range. -/
theorem test_assembles :
    assemble (.addImm 0 0 1) = some 0x1021 ∧ assemble (.addImm 1 1 (-1)) = some 0x127F ∧
      assemble (.addImm 2 2 (-16)) = some 0x14B0 ∧ assemble (.addImm 2 2 15) = some 0x14AF ∧
      assemble (.br false false true (-5)) = some 0x03FB ∧ assemble (.jsr (-1024)) = some 0x4C00 ∧
      assemble (.str 1 6 (-1)) = some 0x73BF ∧ assemble (.not 0 0) = some 0x903F ∧ assemble .ret = some 0xC1C0 ∧
      assemble .halt = some 0xF025 ∧ assemble .nop = some 0x0000 ∧ assemble .rti = some 0x8000 ∧
      assemble (.fill 0x7FFF) = some 0x7FFF := by decide

/-! Decoding: for every constructor a word written out from its pattern (R83), every register and immediate bit at both
values over the list. -/

theorem test_decode_br : decode 0b0000_101_000000100#16 = .br true false true 0x004#9 ∧
    decode 0b0000_010_111111011#16 = .br false true false 0x1FB#9 := by decide

theorem test_decode_addReg : decode 0b0001_110_101_0_00_011#16 = .addReg 6 5 3 ∧
    decode 0b0001_000_001_0_11_010#16 = .addReg 0 1 2 := by decide

theorem test_decode_addImm : decode 0b0001_011_100_1_10110#16 = .addImm 3 4 0x16#5 := by decide

theorem test_decode_ld : decode 0b0010_101_011001010#16 = .ld 5 0x0CA#9 := by decide

theorem test_decode_st : decode 0b0011_110_101010101#16 = .st 6 0x155#9 := by decide

theorem test_decode_jsrr : decode 0b0100_0_00_011_000000#16 = .jsrr 3 ∧
    decode 0b0100_0_11_010_111111#16 = .jsrr 2 := by decide

theorem test_decode_jsr : decode 0b0100_1_10000000001#16 = .jsr 0x401#11 := by decide

theorem test_decode_andReg : decode 0b0101_010_011_0_00_100#16 = .andReg 2 3 4 := by decide

theorem test_decode_andImm : decode 0b0101_001_010_1_01101#16 = .andImm 1 2 0x0D#5 := by decide

theorem test_decode_ldr : decode 0b0110_011_010_100001#16 = .ldr 3 2 0x21#6 := by decide

theorem test_decode_str : decode 0b0111_100_111_011110#16 = .str 4 7 0x1E#6 := by decide

theorem test_decode_rti : decode 0b1000_000000000000#16 = .rti ∧ decode 0b1000_111111111111#16 = .rti := by decide

theorem test_decode_not : decode 0b1001_101_010_111111#16 = .not 5 2 ∧
    decode 0b1001_011_100_000000#16 = .not 3 4 := by decide

theorem test_decode_ldi : decode 0b1010_100_000000110#16 = .ldi 4 0x006#9 := by decide

theorem test_decode_sti : decode 0b1011_001_100000000#16 = .sti 1 0x100#9 := by decide

theorem test_decode_jmp : decode 0b1100_000_111_000000#16 = .jmp 7 ∧
    decode 0b1100_111_010_111111#16 = .jmp 2 := by decide

theorem test_decode_reservedD : decode 0b1101_100000000001#16 = .reservedD 0x801#12 := by decide

theorem test_decode_lea : decode 0b1110_111_000000001#16 = .lea 7 0x001#9 := by decide

theorem test_decode_trap : decode 0b1111_0000_00100101#16 = .trap 0x25#8 ∧
    decode 0b1111_1111_11111111#16 = .trap 0xFF#8 := by decide

/-- The fields of 0x52BF, from the decoder's table of vectors. -/
theorem test_decode_fields :
    decodeFields 0x52BF = ⟨0x5, 1, 2, 7, 0x1F, true, 0x0BF, 0x2BF, 0x3F, false, false, true, false, 0xBF⟩ := by decide

theorem test_table_has_nineteen_rows : opcodeTable.length = 19 := by decide

/-! The datapath units (sections 2.1 to 2.3 of the vectors). -/

theorem test_sext :
    sext 0x0F#5 = 15 ∧ sext 0x10#5 = -16 ∧ sext 0x20#6 = -32 ∧ sext 0x1FB#9 = -5 ∧ sext 0x400#11 = -1024 ∧
      sext 0x7FFF#16 = 32767 ∧ sext 0x8000#16 = -32768 ∧ sext 0#1 = 0 ∧ sext 1#1 = -1 := by decide

theorem test_add16 :
    add16 0x7FFF#16 0x0001#16 = 0x8000 ∧ add16 0x8000#16 0xFFFF#16 = 0x7FFF ∧ add16 0xFFFF#16 0x01#5 = 0x0000 ∧
      add16 0x0000#16 0x1F#5 = 0xFFFF ∧ add16 0x3008#16 0x1FB#9 = 0x3003 ∧ add16 0x0002#16 0x1FD#9 = 0xFFFF ∧
      add16 0x3401#16 0x400#11 = 0x3001 ∧ add16 0xFFFF#16 0x01#6 = 0x0000 ∧ add16 0x1234#16 1#1 = 0x1233 := by decide

theorem test_updateFlags :
    updateFlags 0x0000 = (false, true, false) ∧ updateFlags 0x0001 = (false, false, true) ∧
      updateFlags 0x7FFF = (false, false, true) ∧ updateFlags 0x8000 = (true, false, false) ∧
      updateFlags 0xFFFF = (true, false, false) := by decide

/-! Operate instructions (section 2.5). -/

theorem test_addReg_wraps :
    look (reg 0) (step (mk 0x3000 false false true [(1, 0x8000), (2, 0x8000)] [(0x3000, 0x1042)])) =
      some (0x0000, 0x3001, false, true, false) := by decide

theorem test_addReg_reads_old_sources :
    look (reg 1) (step (mk 0x3000 false true false [(1, 0x4001)] [(0x3000, 0x1241)])) =
      some (0x8002, 0x3001, true, false, false) := by decide

theorem test_addImm_negative :
    look (reg 2) (step (mk 0x3000 false false true [(2, 0x000F)] [(0x3000, 0x14B0)])) =
      some (0xFFFF, 0x3001, true, false, false) := by decide

theorem test_addImm_moves :
    look (reg 3) (step (mk 0x3000 false false true [(4, 0x8123)] [(0x3000, 0x1720)])) =
      some (0x8123, 0x3001, true, false, false) := by decide

theorem test_andReg :
    look (reg 2) (step (mk 0x3000 false true false [(3, 0xFF00), (4, 0x0FF0)] [(0x3000, 0x54C4)])) =
      some (0x0F00, 0x3001, false, false, true) := by decide

theorem test_andImm_source_example_S6 :
    look (reg 1) (step (mk 0x3000 false true false [(2, 0x00FF)] [(0x3000, 0x52BF)])) =
      some (0x00FF, 0x3001, false, false, true) := by decide

theorem test_andImm_sign_extends :
    look (reg 1) (step (mk 0x3000 false true false [(2, 0x80FF)] [(0x3000, 0x52B0)])) =
      some (0x80F0, 0x3001, true, false, false) := by decide

theorem test_not :
    look (reg 0) (step (mk 0x3000 false true false [(0, 0x00F0)] [(0x3000, 0x903F)])) =
      some (0xFF0F, 0x3001, true, false, false) := by decide

theorem test_not_ignores_low_bits :
    look (reg 3) (step (mk 0x3000 true false false [(4, 0x8000)] [(0x3000, 0x9700)])) =
      some (0x7FFF, 0x3001, false, false, true) := by decide

/-! Data movement instructions (section 2.6). -/

theorem test_ld :
    look (reg 1) (step (mk 0x3001 false true false [] [(0x3001, 0x2208), (0x300A, 0x0003)])) =
      some (0x0003, 0x3002, false, false, true) := by decide

theorem test_ld_past_memory_faults :
    faultOf (step (mk 0x7FFF false true false [(1, 0x1111)] [(0x7FFF, 0x2200)])) =
      some (.outOfBounds 0x8000 .read) := by decide

theorem test_ldi :
    look (reg 4) (step (mk 0x3003 false true false [] [(0x3003, 0xA806), (0x300A, 0x300B), (0x300B, 0xFF10)])) =
      some (0xFF10, 0x3004, true, false, false) := by decide

theorem test_ldi_bad_pointer_faults :
    faultOf (step (mk 0x3003 false true false [(4, 0x2222)] [(0x3003, 0xA806), (0x300A, 0x8000)])) =
      some (.outOfBounds 0x8000 .read) := by decide

theorem test_ldr_same_register :
    look (reg 2) (step (mk 0x3000 false true false [(2, 0x4000)] [(0x3000, 0x6481), (0x4001, 0x7FFF)])) =
      some (0x7FFF, 0x3001, false, false, true) := by decide

theorem test_ldr_base_past_memory :
    look (reg 0) (step (mk 0x3000 false false true [(1, 0x8000)] [(0x3000, 0x607F), (0x7FFF, 0x1234)])) =
      some (0x1234, 0x3001, false, false, true) := by decide

theorem test_lea_leaves_flags :
    look (reg 0) (step (mk 0x3000 false true false [] [(0x3000, 0xE001)])) =
      some (0x3002, 0x3001, false, true, false) := by decide

theorem test_lea_past_memory_does_not_fault :
    look (reg 0) (step (mk 0x7FFF false false true [] [(0x7FFF, 0xE0FF)])) =
      some (0x80FF, 0x8000, false, false, true) := by decide

theorem test_st :
    look (word 0x300E) (step (mk 0x3008 false true false [(0, 0x8002)] [(0x3008, 0x3005)])) =
      some (0x8002, 0x3009, false, true, false) := by decide

theorem test_st_past_memory_faults :
    faultOf (step (mk 0x7FFF false true false [(0, 0xABCD)] [(0x7FFF, 0x3000)])) =
      some (.outOfBounds 0x8000 .write) := by decide

theorem test_sti :
    look (word 0x300B) (step (mk 0x3002 true false false [(0, 0xFF10)] [(0x3002, 0xB007), (0x300A, 0x300B)])) =
      some (0xFF10, 0x3003, true, false, false) := by decide

theorem test_sti_pointer_read_faults_first :
    faultOf (step (mk 0x7FFF false true false [(0, 0x0042)] [(0x7FFF, 0xB000)])) =
      some (.outOfBounds 0x8000 .read) := by decide

theorem test_str_last_address :
    look (word 0x7FFF) (step (mk 0x3000 false true false [(6, 0x7FE0), (1, 0x1234)] [(0x3000, 0x739F)])) =
      some (0x1234, 0x3001, false, true, false) := by decide

theorem test_str_past_memory_faults :
    faultOf (step (mk 0x3000 false true false [(6, 0x7FE1), (1, 0x1234)] [(0x3000, 0x739F)])) =
      some (.outOfBounds 0x8000 .write) := by decide

/-! Control transfer instructions (section 2.7). -/

theorem test_br_taken :
    look pcAndFlags (step (mk 0x3007 false false true [] [(0x3007, 0x03FB)])) =
      some (0x3003, false, false, true) := by decide

theorem test_br_not_taken :
    look pcAndFlags (step (mk 0x3000 false true false [] [(0x3000, 0x0A04)])) =
      some (0x3001, false, true, false) := by decide

theorem test_jmp_ignores_bits :
    look pcAndFlags (step (mk 0x3000 false true false [(2, 0x4000)] [(0x3000, 0xCEBF)])) =
      some (0x4000, false, true, false) := by decide

theorem test_jmp_out_of_memory_commits :
    look pcAndFlags (step (mk 0x3000 false true false [(2, 0xFFFF)] [(0x3000, 0xC080)])) =
      some (0xFFFF, false, true, false) := by decide

theorem test_jsr :
    look (reg 7) (step (mk 0x3400 true false false [(7, 0x1111)] [(0x3400, 0x4C00)])) =
      some (0x3401, 0x3001, true, false, false) := by decide

theorem test_jsrr_r7_uses_old_register :
    look (reg 7) (step (mk 0x3010 false false true [(7, 0x6000)] [(0x3010, 0x41C0)])) =
      some (0x3011, 0x6000, false, false, true) := by decide

/-! System instructions (section 2.8). -/

theorem test_rti :
    look pcAndFlags (step (mk 0x3002 true false false [] [(0x3002, 0x8FFF)])) =
      some (0x3003, true, false, false) := by decide

theorem test_trap :
    look (fun t => (reg 7 t, t.run, t.icount)) (step (mk 0x3003 true false false [(7, 0x1234)] [(0x3003, 0xF025)])) =
      some ((0x1234, 0x0000, true, false, false), true, 1) := by decide

theorem test_reservedD_faults :
    faultOf (step (mk 0x3000 false false true [] [(0x3000, 0xDFFF)])) = some (.illegalOpcode 0xDFFF) := by decide

/-! The cycle driver (section 2.9). -/

theorem test_halt_sentinel :
    look (fun t => (reg 0 t, t.run, t.icount)) (step (mk 0x0000 false true false [(0, 0x0001)] [(0x0000, 0x1021)])) =
      some ((0x0001, 0x0000, false, true, false), false, 0) := by decide

theorem test_stopped_engine_stays : step ((mk 0x3000 false true false [] []).setRun false) =
    .next ((mk 0x3000 false true false [] []).setRun false) := rfl

theorem test_fetch_past_memory_faults :
    faultOf (step (mk 0x8000 false true false [] [])) = some (.outOfBounds 0x8000 .fetch) ∧
      faultOf (step (mk 0xFFFF false true false [] [])) = some (.outOfBounds 0xFFFF .fetch) := by decide

theorem test_last_word_runs :
    look (fun t => (reg 0 t, t.icount)) (step (mk 0x7FFF false true false [] [(0x7FFF, 0x1021)])) =
      some ((0x0001, 0x8000, false, false, true), 1) := by decide

/-! Loading and launching (section 2.10), and placing a word. -/

/-- The state a load gives, and its error. -/
def loaded : Except LoadError State → Option State
  | .ok s => some s
  | .error _ => none

theorem test_load_two_images :
    (loaded (loadAll [⟨0x3000, [0xE001, 0x1021]⟩, ⟨0x4000, [0x1234]⟩] State.reset)).map
        (fun s => (s.pc, s.mem.readWord 0x3000, s.mem.readWord 0x3001, s.mem.readWord 0x4000, s.run)) =
      some (0x3000, 0xE001, 0x1021, 0x1234, false) := by decide

theorem test_load_at_the_end :
    (loaded (load ⟨0x7FFF, [0xAAAA]⟩ State.reset)).map (fun s => (s.pc, s.mem.readWord 0x7FFF)) =
      some (0x7FFF, 0xAAAA) ∧ loaded (load ⟨0x7FFF, [0xAAAA, 0xBBBB]⟩ State.reset) = none := by decide

theorem test_launch :
    (loaded (launch [⟨0x3000, [0xD000]⟩])).map (fun s => (pcAndFlags s, s.run, s.icount)) =
      some ((0x3000, false, true, false), true, 0) := by decide

/-- Program 1's first word, from the power-on state. -/
theorem test_withFetchWord_runs_the_word :
    look (reg 0) (step (State.reset.withFetchWord 16 0xE001)) = some (0x3002, 0x3001, false, true, false) := by decide

theorem test_decodeTableWord : decodeTableWord 16 0x52BF = some (.andImm 1 2 0x1F#5) := by decide

/-! Witnesses: for every statement with hypotheses, concrete values that meet them; one per clause, at the ends of its
range. -/

/-- An outcome is a next state, a fault. -/
def isNext (o : Host.Outcome State Fault Refusal) : Bool := (look (fun _ => ()) o).isSome

theorem exists_next {o : Host.Outcome State Fault Refusal} (h : isNext o = true) : ∃ t, o = .next t := by
  cases o with
  | next t => exact ⟨t, rfl⟩
  | fault f => cases h
  | refused r => cases h

/-- Both clauses of `LoadPlacesTheImage` at the edge of memory; the state before a load with the PC at 0 and not at 0. -/
theorem witness_LoadPlacesTheImage :
    32768 < (0x7FFF#16).toNat + [0xAAAA#16, 0xBBBB#16].length ∧ (0x7FFF#16).toNat + [0xAAAA#16].length ≤ 32768 ∧
      State.reset.mem.wf = true ∧ State.reset.pc = 0x0000#16 ∧ (State.reset.setPc 0x3000).mem.wf = true ∧
      (State.reset.setPc 0x3000).pc ≠ 0x0000#16 := by decide

theorem witness_FinalisationForcesZAndSetsRun :
    State.reset.n = false ∧ State.reset.p = false ∧ State.reset.run = false := by decide

theorem witness_LaunchStateOfOneImage :
    0x7FFF#16 ≠ 0x0000#16 ∧ (0x7FFF#16).toNat + [0xAAAA#16].length ≤ 32768 := by decide

theorem witness_LaunchAtBaseZeroHaltsAtOnce : [0x1021#16].length ≤ 32768 := by decide

theorem witness_LaunchStatesAreValid :
    (∃ s, launch [] = .ok s) ∧ ∃ s, launch [⟨0x3000, [0xE001, 0x1021]⟩, ⟨0x4000, [0x1234]⟩] = .ok s :=
  ⟨⟨_, rfl⟩, _, rfl⟩

/-- A row the word 0x52BF matches. -/
theorem witness_EveryWordMatchesExactlyItsRow :
    (⟨"AND", 0x5020, 0xF020, 0x0000⟩ : Row) ∈ opcodeTable ∧ 0x52BF#16 &&& 0xF020#16 = 0x5020#16 := by decide

/-- R130's pair 0x1042 and 0x105A. -/
theorem witness_IgnoredBitsHaveNoEffect :
    field 0x1042 15 12 ≠ 0xD ∧ (0x1042#16 ^^^ 0x105A#16) &&& ~~~(decode 0x1042).row.ignored = 0#16 := by decide

theorem witness_SignedFieldHoldsItsValue :
    1 ≤ 5 ∧ signedFits 5 (-16) = true ∧ signedFits 5 15 = true ∧ signedFits 11 (-1024) = true := by decide

theorem witness_SignExtensionIsTwosComplement :
    (1 ≤ 5 ∧ 5 ≤ 16) ∧ (0x0F#5).toNat < 2 ^ (5 - 1) ∧ 2 ^ (5 - 1) ≤ (0x10#5).toNat ∧ (0#1).toNat < 2 ^ (1 - 1) ∧
      2 ^ (1 - 1) ≤ (1#1).toNat ∧ 2 ^ (16 - 1) ≤ (0x8000#16).toNat := by decide

theorem witness_AdderIsTheModularSum : 9 ≤ 16 ∧ 16 ≤ 16 := by decide

/-- Each range of the updater at both ends; an instruction that writes flags and one that does not, both completing. -/
theorem witness_FlagsFollowTheWrittenValue :
    (0x8000 ≤ (0x8000#16).toNat ∧ 0x8000 ≤ (0xFFFF#16).toNat ∧ 0x0001 ≤ (0x0001#16).toNat ∧
      (0x7FFF#16).toNat ≤ 0x7FFF) ∧
    ((∃ t, exec (.addImm 0 0 1) State.reset = .next t) ∧ writesFlags (.addImm 0 0 1) = true) ∧
      (∃ t, exec (.lea 0 1) State.reset = .next t) ∧ writesFlags (.lea 0 1) = false :=
  ⟨by decide, ⟨⟨_, rfl⟩, rfl⟩, ⟨_, rfl⟩, rfl⟩

theorem witness_AdvancedPcIsTheNextWord :
    (mk 0xFFFE false true false [] []).pc.toNat < 0xFFFF ∧ (mk 0xFFFF false true false [] []).pc.toNat = 0xFFFF := by decide

/-- `AddRegisterAddsModulo65536` (ignored bits clear and set), `AddImmediateAddsTheSignedField`, `AndRegisterIsBitwise`,
`AndImmediateMasksWithTheSignedField`, `NotComplementsTheSource`: words that meet the mask. -/
theorem witness_operate_words :
    0x1042#16 &&& 0xF020#16 = 0x1000#16 ∧ 0x105A#16 &&& 0xF020#16 = 0x1000#16 ∧
      0x14BF#16 &&& 0xF020#16 = 0x1020#16 ∧ 0x54C4#16 &&& 0xF020#16 = 0x5000#16 ∧
      0x52BF#16 &&& 0xF020#16 = 0x5020#16 ∧ 0x903F#16 &&& 0xF000#16 = 0x9000#16 ∧
      0x9700#16 &&& 0xF000#16 = 0x9000#16 := by decide

/-- The two clauses of `AndImmediateMasksWithTheSignedField` where they meet. -/
theorem witness_AndImmediateMasksWithTheSignedField : (0x0F#5).toNat < 0x10 ∧ 0x10 ≤ (0x10#5).toNat := by decide

/-- The first clauses of the statements about LD, LDI, LDR, LEA, ST, STI and STR, in this order: words that meet the mask. -/
theorem witness_dataMovement_words :
    0x2208#16 &&& 0xF000#16 = 0x2000#16 ∧ 0xA806#16 &&& 0xF000#16 = 0xA000#16 ∧
      0x6680#16 &&& 0xF000#16 = 0x6000#16 ∧ 0xE001#16 &&& 0xF000#16 = 0xE000#16 ∧
      0x3005#16 &&& 0xF000#16 = 0x3000#16 ∧ 0xB007#16 &&& 0xF000#16 = 0xB000#16 ∧
      0x73BF#16 &&& 0xF000#16 = 0x7000#16 := by decide

/-- `LdLoadsTheWordAtThePcRelativeAddress`, `StStoresAtThePcRelativeAddress`: the last address that has a cell, and the first that has none. -/
theorem witness_pcRelative_clauses :
    (pcRel9 (mk 0x7FFE false true false [] []) 0).toNat = 0x7FFF ∧
      (pcRel9 (mk 0x7FFF false true false [] []) 0).toNat = 0x8000 ∧ (mk 0x7FFE false true false [] []).mem.wf = true := by
  decide

/-- `LdrLoadsTheWordAtBasePlusOffset`, `StrStoresAtBasePlusOffset`: the same two addresses. -/
theorem witness_baseOffset_clauses :
    (baseOff6 (mk 0x3000 false true false [(6, 0x7FE0)] []) 6 0x1F).toNat = 0x7FFF ∧
      (baseOff6 (mk 0x3000 false true false [(6, 0x7FE1)] []) 6 0x1F).toNat = 0x8000 := by decide

/-- `LdiLoadsThroughThePointerCell`, `StiStoresThroughThePointerCell`: a pointer cell in range that holds the last address, one
that holds the first bad address, and a pointer cell out of range. -/
theorem witness_pointer_clauses :
    let good := mk 0x3000 false true false [] [(0x3001, 0x7FFF)]
    let bad := mk 0x3000 false true false [] [(0x3001, 0x8000)]
    ((pcRel9 good 0).toNat < 0x8000 ∧ (good.mem.readWord (pcRel9 good 0).toNat).toNat = 0x7FFF ∧ good.mem.wf = true) ∧
      ((pcRel9 bad 0).toNat < 0x8000 ∧ (bad.mem.readWord (pcRel9 bad 0).toNat).toNat = 0x8000) ∧
      0x8000 ≤ (pcRel9 (mk 0x7FFF false true false [] []) 0).toNat := by decide

/-- `BrBranchesOnTheRequestedFlags`, `JmpGoesToTheRegister`, `JsrLinksAndGoesPcRelative`, `JsrrLinksAndGoesToTheOldRegister`:
words that meet the mask. -/
theorem witness_control_words :
    0x03FB#16 &&& 0xF000#16 = 0x0000#16 ∧ 0xCEBF#16 &&& 0xF000#16 = 0xC000#16 ∧
      0x4804#16 &&& 0xF800#16 = 0x4800#16 ∧ 0x46BF#16 &&& 0xF800#16 = 0x4000#16 := by decide

/-- BR: taken, not taken, and a state with exactly one flag. -/
theorem witness_BrBranchesOnTheRequestedFlags :
    let s := mk 0x3007 false false true [] []
    (true = true ∧ s.p = true) ∧ ¬ (true = true ∧ s.n = true ∨ true = true ∧ s.z = true ∨ false = true ∧ s.p = true) ∧
      OneHot s := by decide

theorem witness_RetReturnsToTheWordAfterJsr :
    ∃ t u : State, exec (.jsr 4) (mk 0x3001 false false true [] []) = .next t ∧ u.getReg 7 = t.getReg 7 := ⟨_, _, rfl, rfl⟩

/-- `RtiOnlyAdvancesThePc`, `TrapOnlyZeroesThePc`, `ReservedOpcodeFaults` (both ends of the opcode): words that meet the mask. -/
theorem witness_system_words :
    0x8FFF#16 &&& 0xF000#16 = 0x8000#16 ∧ 0xF025#16 &&& 0xF000#16 = 0xF000#16 ∧ 0xFFFF#16 &&& 0xF000#16 = 0xF000#16 ∧
      0xD000#16 &&& 0xF000#16 = 0xD000#16 ∧ 0xDFFF#16 &&& 0xF000#16 = 0xD000#16 := by decide

theorem witness_TrapHaltsAtTheFollowingCheck :
    let s := mk 0x3003 true false false [] [(0x3003, 0xF025)]
    s.run = true ∧ s.pc ≠ 0x0000#16 ∧ s.pc.toNat < 0x8000 ∧ decode (s.mem.readWord s.pc.toNat) = .trap 0x25#8 := by decide

/-- At the last address an instruction can stand at. -/
theorem witness_StepRunsTheDecodedInstruction :
    let s := mk 0x7FFF false true false [] [(0x7FFF, 0x1021)]
    s.run = true ∧ s.pc ≠ 0x0000#16 ∧ s.pc.toNat < 0x8000 ∧ decode (s.mem.readWord s.pc.toNat) = .addImm 0 0 1 := by decide

/-- Stopped; at the sentinel; the first address that cannot be fetched. -/
theorem witness_OutcomePriority_before_decode :
    State.reset.run = false ∧
      ((mk 0x0000 false true false [] []).run = true ∧ (mk 0x0000 false true false [] []).pc = 0x0000#16) ∧
      (mk 0x8000 false true false [] []).run = true ∧ 0x8000 ≤ (mk 0x8000 false true false [] []).pc.toNat := by decide

/-- Opcode 0xD; STI with both accesses out of range, whose first is named; an instruction with no access out of range. -/
theorem witness_OutcomePriority_after_decode :
    field ((mk 0x7FFF false true false [] [(0x7FFF, 0xD000)]).mem.readWord 0x7FFF) 15 12 = 0xD ∧
      firstBad (accesses (.sti 0 0) (mk 0x7FFF false true false [] [(0x7FFF, 0xB000)])) = some (.read, 0x8000) ∧
      firstBad (accesses (.sti 0 0) (mk 0x3000 false true false [] [(0x3001, 0x8000)])) = some (.write, 0x8000) ∧
      firstBad (accesses (.ld 0 0) (mk 0x7FFE false true false [] [(0x7FFE, 0x2000)])) = none ∧
      field ((mk 0x7FFE false true false [] [(0x7FFE, 0x2000)]).mem.readWord 0x7FFE) 15 12 ≠ 0xD := by decide

/-- A stopped engine, the sentinel, and a step that commits. -/
theorem witness_HaltCheckClearsRun :
    State.reset.run = false ∧
      ((mk 0x0000 false true false [] []).run = true ∧ (mk 0x0000 false true false [] []).pc = 0x0000#16) ∧
      ∃ u, step (mk 0x3000 false true false [] [(0x3000, 0x8000)]) = .next u :=
  ⟨rfl, ⟨rfl, rfl⟩, exists_next (by decide)⟩

/-- A committed cycle, and the two that count nothing. -/
theorem witness_InstructionCounterCountsCommittedCycles :
    (∃ u, step (mk 0x3000 false true false [] [(0x3000, 0x8000)]) = .next u) ∧
      (∃ u, step State.reset = .next u) ∧ ∃ u, step (mk 0x0000 false true false [] []) = .next u :=
  ⟨exists_next (by decide), exists_next (by decide), exists_next (by decide)⟩

/-- Program 4's store to the next word, and the same through STI and STR. -/
theorem witness_StoreIsSeenByTheNextFetch :
    let st := mk 0x3001 false false true [(0, 0x1265)] [(0x3001, 0x3000)]
    let sti := mk 0x3001 false false true [(0, 0x1265)] [(0x3001, 0xB001), (0x3003, 0x3002)]
    let str := mk 0x3001 false false true [(0, 0x1265), (1, 0x3002)] [(0x3001, 0x7040)]
    (st.run = true ∧ decode (st.mem.readWord 0x3001) = .st 0 0 ∧ st.mem.wf = true ∧
      accesses (.st 0 0) st = [(.write, st.apc)] ∧ firstBad (accesses (.st 0 0) st) = none) ∧
    (decode (sti.mem.readWord 0x3001) = .sti 0 1 ∧ sti.mem.wf = true ∧
      (AccessKind.write, sti.apc) ∈ accesses (.sti 0 1) sti ∧ firstBad (accesses (.sti 0 1) sti) = none) ∧
    decode (str.mem.readWord 0x3001) = .str 0 1 0 ∧ str.mem.wf = true ∧
      accesses (.str 0 1 0) str = [(.write, str.apc)] ∧ firstBad (accesses (.str 0 1 0) str) = none := by decide

/-- Program 3: STI at 0x3002, LDI at 0x3003, the pointer cell 0x300A. -/
theorem witness_StiThenLdiRoundTrips :
    let s := mk 0x3002 true false false [(0, 0xFF10)] [(0x300A, 0x300B)]
    s.mem.wf = true ∧ (∃ t u, exec (.sti 0 7) s = .next t ∧ u.mem = t.mem ∧ pcRel9 u 6 = pcRel9 s 7) ∧
      s.mem.readWord (pcRel9 s 7).toNat ≠ pcRel9 s 7 := by
  refine ⟨by decide, ?_, by decide⟩
  obtain ⟨t, ht⟩ := exists_next (o := exec (.sti 0 7) (mk 0x3002 true false false [(0, 0xFF10)] [(0x300A, 0x300B)])) (by decide)
  exact ⟨t, (mk 0x3003 true false false [] []).setMem t.mem, ht, rfl,
    show pcRel9 (mk 0x3003 true false false [] []) 6 = pcRel9 (mk 0x3002 true false false [] []) 7 by decide⟩

theorem witness_OnlyTheNamedRegisterIsWritten : ∃ t, exec (.jsrr 7) (mk 0x3010 false false true [(7, 0x6000)] []) = .next t :=
  ⟨_, rfl⟩

/-- A store, a cell outside its word, and an instruction with no write. -/
theorem witness_OnlyTheListedWriteChangesMemory :
    let s := mk 0x3008 false true false [(0, 0x8002)] []
    (∃ t, exec (.st 0 5) s = .next t) ∧ accesses (.st 0 5) s = [(.write, 0x300E)] ∧
      (Memory.lowKey 0x300F ≠ Memory.lowKey 0x300E ∧ Memory.lowKey 0x300F ≠ Memory.highKey 0x300E) ∧
      (∃ t, exec .rti s = .next t) ∧ accesses .rti s = [] := by
  exact ⟨exists_next (by decide), by decide, by decide, exists_next (by decide), rfl⟩

/-- Two memories that agree on the word LD reads and nowhere else that is listed. -/
theorem witness_OnlyTheListedReadsMatter :
    let s := mk 0x3001 false true false [] [(0x300A, 0x0003), (0x4000, 0x1111)]
    let m := (mk 0x3001 false true false [] [(0x300A, 0x0003), (0x5000, 0x2222)]).mem
    m ≠ s.mem ∧ accesses (.ld 1 8) s = [(.read, 0x300A)] ∧ m.readWord 0x300A = s.mem.readWord 0x300A := by decide

theorem witness_StepKeepsExactlyOneFlag :
    OneHot (mk 0x3000 false false true [] [(0x3000, 0x5020)]) ∧
      ∃ u, step (mk 0x3000 false false true [] [(0x3000, 0x5020)]) = .next u :=
  ⟨by decide, exists_next (by decide)⟩

/-- A store of the value unlisted cells hold, over a listed word. -/
theorem witness_StepKeepsMemoryCanonical :
    (mk 0x3000 false true false [] [(0x3000, 0x3001), (0x3002, 0x1234)]).mem.wf = true ∧
      ∃ u, step (mk 0x3000 false true false [] [(0x3000, 0x3001), (0x3002, 0x1234)]) = .next u :=
  ⟨by decide, exists_next (by decide)⟩

theorem witness_ReachedStatesAreValid : ∃ s, launch [⟨0x3000, [0x2003, 0x3000, 0x8000, 0xF025, 0x1265]⟩] = .ok s := ⟨_, rfl⟩

/-- A run for each of the three ends: Program 6's fault, a TRAP and the halt check, one no-op of a bound of one. -/
theorem witness_RunsEndInOneOfThreeWays :
    let fault := mk 0x3000 false true false [] [(0x3000, 0xD000)]
    let halt := mk 0x3003 true false false [] [(0x3003, 0xF025)]
    let go := mk 0x3000 false true false [] [(0x3000, 0x8000)]
    (fault.run = true ∧ (hostRun 1 fault).2 = .fault (.illegalOpcode 0xD000)) ∧
      (halt.run = true ∧ (hostRun 2 halt).2 = .halted) ∧ go.run = true ∧ (hostRun 1 go).2 = .ran := by decide

/-- A run's end, from the bounded run that shows it. -/
theorem goesTo_of_hostRun {s : State} {n : Nat} {e : RunEnd} (h : (hostRun n s).2 = e) (he : e ≠ .ran) :
    GoesTo s (hostRun n s).1 e := ⟨n, Prod.ext rfl h, he⟩

/-- The converse clauses' hypotheses: a step to the PC 0; no step, in a state with a fault's cause. -/
theorem witness_TheEndOfARunIsUnique_converse :
    let halt := mk 0x3003 true false false [] [(0x3003, 0xF025)]
    let opcode := mk 0x3000 false true false [] [(0x3000, 0xD000)]
    (look (fun t => (t.pc, t.run)) (steps 1 halt) = some (0x0000, true)) ∧
      steps 0 opcode = .next opcode ∧ opcode.run = true ∧ opcode.pc ≠ 0x0000#16 ∧
      FaultCause opcode (.illegalOpcode 0xD000) :=
  ⟨by decide, rfl, rfl, by decide, .inr (.inl ⟨by decide, by decide, by decide⟩)⟩

/-- A running engine for each clause: a TRAP and the halt check; a word and then an LDR out of range (Program 5), opcode 0xD
(Program 6), and a fetch past memory. -/
theorem witness_TheEndOfARunIsUnique :
    let halt := mk 0x3003 true false false [] [(0x3003, 0xF025)]
    let access := mk 0x3000 false true false [] [(0x3000, 0x2201), (0x3001, 0x6040), (0x3002, 0x8000)]
    let opcode := mk 0x3000 false true false [] [(0x3000, 0xD000)]
    let fetch := mk 0x7FFF false true false [] [(0x7FFF, 0x8000)]
    (halt.run = true ∧ ∃ t, EndsNormally halt t) ∧
      (access.run = true ∧ ∃ t, EndsAbnormally access t (.outOfBounds 0x8000 .read)) ∧
      (opcode.run = true ∧ ∃ t, EndsAbnormally opcode t (.illegalOpcode 0xD000)) ∧
      fetch.run = true ∧ ∃ t, EndsAbnormally fetch t (.outOfBounds 0x8000 .fetch) :=
  ⟨⟨rfl, _, goesTo_of_hostRun (n := 2) (by decide) (by decide)⟩, ⟨rfl, _, goesTo_of_hostRun (n := 2) (by decide) (by decide)⟩,
    ⟨rfl, _, goesTo_of_hostRun (n := 1) (by decide) (by decide)⟩, rfl, _, goesTo_of_hostRun (n := 2) (by decide) (by decide)⟩

end Sys2Proof.Tests
end

/-! # The architectural state (`10_state.md`): what every instruction, step, load and run keeps -/

namespace Sys2Proof

open Machine

/-! ## What an instruction can do to the state -/

/-- The four shapes of a next-state (R22, R52): a result with its flags, a register written without flags (LEA and the
links), a change of the PC alone, a store. Each constructor carries what the tables say of the instructions of that shape. -/
inductive Effect (i : Instr) (s : State) : State → Prop
  | result (dr : RegNum) (v : Word) (dest : destRegs i = [dr]) (flags : writesFlags i = true) :
      Effect i s (s.writeResult dr v)
  | register (dr : RegNum) (v target : Word) (dest : destRegs i = [dr]) (flags : writesFlags i = false) :
      Effect i s ((s.advance.setReg dr v).setPc target)
  | pcOnly (target : Word) (dest : destRegs i = []) (flags : writesFlags i = false) :
      Effect i s (s.advance.setPc target)
  | store (a v : Word) (inMemory : a.toNat < Config.memWords) (listed : (AccessKind.write, a) ∈ accesses i s)
      (dest : destRegs i = []) (flags : writesFlags i = false) :
      Effect i s (s.advance.setMem (s.mem.writeWord a.toNat v))

/-- Everything an instruction that gives a next state can have done. -/
theorem exec_next_effect {i : Instr} {s t : State} (h : exec i s = .next t) : Effect i s t := by
  cases i with
  | addReg dr sr1 sr2 => cases h; exact .result dr _ rfl rfl
  | addImm dr sr1 imm => cases h; exact .result dr _ rfl rfl
  | andReg dr sr1 sr2 => cases h; exact .result dr _ rfl rfl
  | andImm dr sr1 imm => cases h; exact .result dr _ rfl rfl
  | not dr sr => cases h; exact .result dr _ rfl rfl
  | ld dr off => obtain ⟨-, rfl⟩ := execLd_next_inv h; exact .result dr _ rfl rfl
  | ldi dr off => obtain ⟨-, -, rfl⟩ := execLdi_next_inv h; exact .result dr _ rfl rfl
  | ldr dr b off => obtain ⟨-, rfl⟩ := execLdr_next_inv h; exact .result dr _ rfl rfl
  | lea dr off => cases h; exact .register dr _ s.apc rfl rfl
  | jsr off => cases h; exact .register linkReg _ _ rfl rfl
  | jsrr b => cases h; exact .register linkReg _ _ rfl rfl
  | br n z p off =>
    obtain ⟨-, rfl⟩ | ⟨-, rfl⟩ := execBr_next_inv h
    · exact .pcOnly _ rfl rfl
    · exact .pcOnly s.apc rfl rfl
  | jmp b => cases h; exact .pcOnly _ rfl rfl
  | rti => cases h; exact .pcOnly s.apc rfl rfl
  | trap v => cases h; exact .pcOnly _ rfl rfl
  | reservedD low => cases h
  | st sr off =>
    obtain ⟨ha, rfl⟩ := execSt_next_inv h
    exact .store _ _ ha (by simp [accesses]) rfl rfl
  | str sr b off =>
    obtain ⟨ha, rfl⟩ := execStr_next_inv h
    exact .store _ _ ha (by simp [accesses]) rfl rfl
  | sti sr off =>
    obtain ⟨-, ha, rfl⟩ := execSti_next_inv h
    exact .store _ _ ha (by simp [accesses]) rfl rfl

/-! ## What every instruction keeps -/

/-- The flag updater sets exactly one flag (R26, R112). -/
theorem updateFlags_oneHot (v : Word) :
    (updateFlags v).1.toNat + (updateFlags v).2.1.toNat + (updateFlags v).2.2.toNat = 1 := by
  unfold updateFlags
  split_ifs <;> rfl

theorem exec_keeps_oneHot {i : Instr} {s t : State} (hs : OneHot s) (h : exec i s = .next t) : OneHot t := by
  cases exec_next_effect h with
  | result dr v => exact updateFlags_oneHot v
  | register => exact hs
  | pcOnly => exact hs
  | store => exact hs

theorem exec_keeps_mem_wf {i : Instr} {s t : State} (hs : s.mem.wf = true) (h : exec i s = .next t) :
    t.mem.wf = true := by
  cases exec_next_effect h with
  | result => exact hs
  | register => exact hs
  | pcOnly => exact hs
  | store a v ha => exact Memory.writeWord_wf v hs ha

/-- No instruction writes RUN or ICOUNT (R27, R28). -/
theorem exec_sameControl {i : Instr} {s t : State} (h : exec i s = .next t) : SameControl s t := by
  cases exec_next_effect h with
  | result => exact ⟨rfl, rfl⟩
  | register => exact ⟨rfl, rfl⟩
  | pcOnly => exact ⟨rfl, rfl⟩
  | store => exact ⟨rfl, rfl⟩

/-- An instruction leaves every register but its destination (R22; D8). -/
theorem exec_sameRegsBut_destRegs {i : Instr} {s t : State} (h : exec i s = .next t) :
    SameRegsBut (destRegs i) s t := by
  intro r hr
  cases exec_next_effect h with
  | result dr v dest =>
    have hne : r ≠ dr := by simpa [dest] using hr
    exact s.writeResult_getReg_ne v hne
  | register dr v target dest =>
    have hne : r ≠ dr := by simpa [dest] using hr
    exact s.advance.setReg_getReg_ne v hne
  | pcOnly => rfl
  | store => rfl

/-! ## Validity along steps and runs -/

theorem step_keeps_oneHot {s u : State} (hs : OneHot s) (h : step s = .next u) : OneHot u := by
  obtain ⟨-, rfl⟩ | ⟨-, -, rfl⟩ | ⟨-, -, -, t, ht, rfl⟩ := step_next_cases h
  · exact hs
  · exact hs
  · have ht : OneHot t := exec_keeps_oneHot hs ht
    exact ht

theorem step_keeps_mem_wf {s u : State} (hs : s.mem.wf = true) (h : step s = .next u) : u.mem.wf = true := by
  obtain ⟨-, rfl⟩ | ⟨-, -, rfl⟩ | ⟨-, -, -, t, ht, rfl⟩ := step_next_cases h
  · exact hs
  · exact hs
  · have ht : t.mem.wf = true := exec_keeps_mem_wf hs ht
    exact ht

theorem step_keeps_valid {s u : State} (hs : Valid s) (h : step s = .next u) : Valid u :=
  ⟨step_keeps_oneHot hs.1 h, step_keeps_mem_wf hs.2 h⟩

/-- A step's next state is that of the cycle's end (log 2). -/
theorem step_of_cycle_next {s : State} {e : CycleEnd} (h : cycle s = .next e) : step s = .next e.state := by
  simp [step, h]

theorem hostRun_succ_refused {k : Nat} {s : State} {r : Refusal} (h : cycle s = .refused r) :
    hostRun (k + 1) s = (s, .refused r) := by simp [hostRun, h]

/-- What every step keeps, every run keeps, however it ends (R189, R203). -/
theorem hostRun_keeps {P : State → Prop} (hstep : ∀ {s u}, P s → step s = .next u → P u) (n : Nat) {s : State}
    (hs : P s) : P (hostRun n s).1 := by
  induction n generalizing s with
  | zero => exact hs
  | succ n ih =>
    cases hc : cycle s with
    | next e =>
      have ht : P e.state := hstep hs (step_of_cycle_next hc)
      cases e with
      | committed t => rw [hostRun_succ_committed hc]; exact ih ht
      | halted t => rw [hostRun_succ_halted hc]; exact ht
    | fault f => rw [hostRun_succ_fault hc]; exact hs
    | refused r => rw [hostRun_succ_refused hc]; exact hs

/-! ## Loading and launching -/

/-- A load that succeeds: the image fits, and only memory and the PC change (R232 to R234). -/
theorem load_ok_inv {im : Image} {s t : State} (h : load im s = .ok t) :
    im.base.toNat + im.words.length ≤ Config.memWords ∧
      t = (s.setMem (s.mem.writeImage im.base.toNat im.words)).setPc (loadPc s.pc im.base) := by
  unfold load at h
  split at h <;> cases h
  exact ⟨of_decide_eq_true ‹_›, rfl⟩

/-- What every successful load keeps, a list of loads keeps (R231). -/
theorem loadAll_keeps {P : State → Prop} (hload : ∀ {im s t}, P s → load im s = .ok t → P t) {ims : List Image}
    {s t : State} (hs : P s) (h : loadAll ims s = .ok t) : P t := by
  induction ims generalizing s with
  | nil => cases h; exact hs
  | cons im ims ih =>
    unfold loadAll at h
    split at h
    · exact ih (hload hs ‹_›) h
    · cases h

/-- A state that is not finalised yet: N, P and RUN as at power-on, memory in canonical form. -/
def Unfinalised (s : State) : Prop := s.n = false ∧ s.p = false ∧ s.run = false ∧ s.mem.wf = true

theorem unfinalised_reset : Unfinalised State.reset := ⟨rfl, rfl, rfl, Memory.wf_nil⟩

theorem load_keeps_unfinalised {im : Image} {s t : State} (hs : Unfinalised s) (h : load im s = .ok t) :
    Unfinalised t := by
  obtain ⟨hn, hp, hrun, hmem⟩ := hs
  obtain ⟨hfits, rfl⟩ := load_ok_inv h
  exact ⟨hn, hp, hrun, Memory.writeImage_wf im.words hmem hfits⟩

/-- Finalisation makes a state valid and sets RUN when something was loaded (R235; D12, D23). -/
theorem finalise_unfinalised {s : State} (hs : Unfinalised s) (loaded : Bool) :
    Valid (finalise loaded s) ∧ (finalise loaded s).run = loaded := by
  obtain ⟨hn, hp, hrun, hmem⟩ := hs
  have hflags : OneHot (finalise loaded s) := by simp [OneHot, finalise, hn, hp]
  exact ⟨⟨hflags, hmem⟩, by simp [finalise, hrun]⟩

/-- A launch that succeeds finalises a state that its loads have left unfinalised (R231). -/
theorem launch_ok_inv {ims : List Image} {s : State} (h : launch ims = .ok s) :
    ∃ t, Unfinalised t ∧ s = finalise (!ims.isEmpty) t := by
  unfold launch at h
  split at h <;> cases h
  exact ⟨_, loadAll_keeps load_keeps_unfinalised unfinalised_reset ‹_›, rfl⟩

theorem launch_valid {ims : List Image} {s : State} (h : launch ims = .ok s) : Valid s := by
  obtain ⟨t, ht, rfl⟩ := launch_ok_inv h
  exact (finalise_unfinalised ht _).1

theorem launch_run_iff {ims : List Image} {s : State} (h : launch ims = .ok s) : s.run = true ↔ ims ≠ [] := by
  obtain ⟨t, ht, rfl⟩ := launch_ok_inv h
  rw [(finalise_unfinalised ht _).2]
  simp

/-! ## RUN after a step -/

theorem step_stopped {s : State} (h : s.run = false) : step s = .next s :=
  step_of_cycle_next (cycle_stopped h)

theorem step_sentinel {s : State} (h : s.run = true) (hp : s.pc = 0#16) : step s = .next (s.setRun false) :=
  step_of_cycle_next (cycle_sentinel h hp)

/-- RUN is set after a step exactly when the step committed an instruction (R27, R181; D9, D10). -/
theorem step_run_iff {s u : State} (h : step s = .next u) : u.run = true ↔ s.run = true ∧ s.pc ≠ 0#16 := by
  obtain ⟨hrun, rfl⟩ | ⟨-, hpc, rfl⟩ | ⟨hrun, hpc, -, t, ht, rfl⟩ := step_next_cases h
  · simp [hrun]
  · simp [hpc]
  · have ht : t.run = s.run := (exec_sameControl ht).1
    simp [ht, hrun, hpc]

/-! ## RUN and ICOUNT replaced: the state operations commute with `withControl` -/

section

variable (b : Bool) (k : Nat) (s : State)

theorem branchTaken_withControl (n z p : Bool) :
    branchTaken (withControl b k s) n z p = branchTaken s n z p := rfl

theorem memWrite_withControl (a v : Word) :
    (withControl b k s).memWrite a v = (s.memWrite a v).map (withControl b k) := by
  obtain ⟨ha, hw⟩ | ⟨ha, hw⟩ := memWrite_cases s a v <;> rw [hw]
  · exact memWrite_ok ha
  · exact memWrite_error ha

end

/-- A read goes on to f of what it went on to, when what follows does. -/
theorem withRead_eq_mapNext {f : State → State} {r : Except Fault Word}
    {next next' : Word → Host.Outcome State Fault Refusal} (h : ∀ v, next' v = mapNext f (next v)) :
    withRead r next' = mapNext f (withRead r next) := by
  cases r with
  | ok v => exact h v
  | error e => rfl

theorem mapNext_finishWrite (f : State → State) (r : Except Fault State) :
    mapNext f (finishWrite r) = finishWrite (r.map f) := by
  cases r with
  | ok t => rfl
  | error e => rfl

/-- A store's end is the same with RUN and ICOUNT replaced. -/
theorem finishWrite_withControl (b : Bool) (k : Nat) (s : State) (a v : Word) :
    finishWrite ((withControl b k s).memWrite a v) = mapNext (withControl b k) (finishWrite (s.memWrite a v)) := by
  rw [memWrite_withControl, mapNext_finishWrite]

theorem execBr_taken {n z p : Bool} {s : State} (h : branchTaken s n z p = true) (off : BitVec 9) :
    execBr n z p off s = .next (s.advance.setPc (pcRel9 s off)) := by
  simp [execBr, h]

theorem execBr_notTaken {n z p : Bool} {s : State} (h : branchTaken s n z p = false) (off : BitVec 9) :
    execBr n z p off s = .next s.advance := by
  simp [execBr, h]

theorem execBr_withControl (b : Bool) (k : Nat) (n z p : Bool) (off : BitVec 9) (s : State) :
    execBr n z p off (withControl b k s) = mapNext (withControl b k) (execBr n z p off s) := by
  have hb := branchTaken_withControl b k s n z p
  cases h : branchTaken s n z p with
  | true => rw [execBr_taken h, execBr_taken (hb.trans h)]; rfl
  | false => rw [execBr_notTaken h, execBr_notTaken (hb.trans h)]; rfl

/-- No instruction reads or writes RUN or ICOUNT (R27, R28): the instructions without a branch, a read or a write compute
field by field, and the others go through the law of the operation they use. -/
theorem exec_withControl (i : Instr) (s : State) (b : Bool) (k : Nat) :
    exec i (withControl b k s) = mapNext (withControl b k) (exec i s) := by
  cases i with
  | addReg dr sr1 sr2 => rfl
  | addImm dr sr1 imm => rfl
  | andReg dr sr1 sr2 => rfl
  | andImm dr sr1 imm => rfl
  | not dr sr => rfl
  | lea dr off => rfl
  | jsr off => rfl
  | jsrr base => rfl
  | jmp base => rfl
  | rti => rfl
  | trap v => rfl
  | reservedD low => rfl
  | br n z p off => exact execBr_withControl b k n z p off s
  | ld dr off => exact withRead_eq_mapNext fun v => rfl
  | ldr dr base off => exact withRead_eq_mapNext fun v => rfl
  | ldi dr off => exact withRead_eq_mapNext fun ptr => withRead_eq_mapNext fun v => rfl
  | st sr off => exact finishWrite_withControl b k s.advance _ _
  | str sr base off => exact finishWrite_withControl b k s.advance _ _
  | sti sr off => exact withRead_eq_mapNext fun ptr => finishWrite_withControl b k s.advance _ _

/-! ## The obligations -/

/-- Settles O49: an instruction writes all three flags from one value or none, and the halt check writes none. -/
theorem stepKeepsExactlyOneFlag : Obligations.StepKeepsExactlyOneFlag :=
  fun _ _ => step_keeps_oneHot

/-- Settles O50: the one write an instruction makes is to an address that has a cell, and keeps the form. -/
theorem stepKeepsMemoryCanonical : Obligations.StepKeepsMemoryCanonical :=
  fun _ _ => step_keeps_mem_wf

/-- Settles O7: loads keep what finalisation needs, by induction on the list of images. -/
theorem launchStatesAreValid : Obligations.LaunchStatesAreValid :=
  fun _ _ h => ⟨launch_valid h, launch_run_iff h⟩

/-- Settles O41, by the ways a step can go. -/
theorem haltCheckClearsRun : Obligations.HaltCheckClearsRun := by
  intro s
  refine ⟨step_stopped, fun hrun hpc => ?_, fun u => step_run_iff⟩
  exact ⟨s.setRun false, step_sentinel hrun hpc, rfl, rfl, rfl, ⟨rfl, rfl, rfl⟩, fun r _ => rfl, fun k => rfl⟩

/-- Settles O45, by the shapes of an instruction's effect. -/
theorem onlyTheNamedRegisterIsWritten : Obligations.OnlyTheNamedRegisterIsWritten :=
  fun _ _ _ => exec_sameRegsBut_destRegs

/-- Settles O48, instruction by instruction. -/
theorem runAndCounterAreInvisibleToInstructions : Obligations.RunAndCounterAreInvisibleToInstructions :=
  exec_withControl

/-- Settles O51: a launch state is valid, every step keeps validity, so every run does. -/
theorem reachedStatesAreValid : Obligations.ReachedStatesAreValid :=
  fun _ _ n h => hostRun_keeps step_keeps_valid n (launch_valid h)

end Sys2Proof

/-! # Memory (`20_memory.md`): what an instruction's accesses say of memory before and after it -/

namespace Sys2Proof

open Machine

/-! ## The list of accesses -/

/-- No access is out of range exactly when every address listed has a cell (R51, R207). -/
theorem firstBad_eq_none_iff (as : List Access) : firstBad as = none ↔ ∀ b ∈ as, b.2.toNat < 32768 := by
  induction as with
  | nil => simp [firstBad]
  | cons b as ih =>
    by_cases hb : b.2.toNat < 32768
    · simp [firstBad, hb, ih]
    · simp [firstBad, hb]

/-- No row of the table of R52 has more than one write. -/
theorem accesses_countP_write_le_one (i : Instr) (s : State) :
    (accesses i s).countP (fun a => a.1 == AccessKind.write) ≤ 1 := by
  cases i <;> simp [accesses]

/-! ## The cells an instruction leaves alone -/

/-- A cell outside the word an instruction writes reads as before (R52, R58). -/
theorem exec_readByte_of_not_written {i : Instr} {s t : State} (h : exec i s = .next t) {k : Nat}
    (hk : ∀ a, (AccessKind.write, a) ∈ accesses i s → k ≠ Memory.lowKey a.toNat ∧ k ≠ Memory.highKey a.toNat) :
    t.mem.readByte k = s.mem.readByte k := by
  cases exec_next_effect h with
  | result => rfl
  | register => rfl
  | pcOnly => rfl
  | store a v inMemory listed =>
    obtain ⟨hlow, hhigh⟩ := hk a listed
    exact Memory.readByte_writeWord_ne s.mem v hlow hhigh

/-! ## A store and the fetch after it -/

/-- ST, STI or STR with the source register sr. -/
def StoresReg (sr : RegNum) (i : Instr) : Prop :=
  (∃ off, i = .st sr off) ∨ (∃ off, i = .sti sr off) ∨ (∃ b off, i = .str sr b off)

/-- A store with no access out of range writes its source register to the address its row lists (R144 to R146). -/
theorem exec_store {i : Instr} {sr : RegNum} {s : State} {a : Word} (hi : StoresReg sr i)
    (ha : (AccessKind.write, a) ∈ accesses i s) (hok : firstBad (accesses i s) = none) :
    exec i s = .next (s.advance.setMem (s.mem.writeWord a.toNat (s.getReg sr))) := by
  have hin := (firstBad_eq_none_iff _).1 hok
  obtain ⟨off, rfl⟩ | ⟨off, rfl⟩ | ⟨b, off, rfl⟩ := hi
  · obtain rfl : a = pcRel9 s off := by simpa [accesses] using ha
    exact execSt_inRange (hin _ ha)
  · obtain rfl : a = s.mem.readWord (pcRel9 s off).toNat := by simpa [accesses] using ha
    exact execSti_inRange (hin (.read, pcRel9 s off) (by simp [accesses])) (hin _ ha)
  · obtain rfl : a = baseOff6 s b off := by simpa [accesses] using ha
    exact execStr_inRange (hin _ ha)

/-- A running engine away from the sentinel runs the instruction of the word it fetches, and counts it (R180 to R187). -/
theorem step_of_fetch {s : State} {w : Word} (hrun : s.run = true) (h0 : s.pc ≠ 0#16) (hw : fetch s = .ok w) :
    step s = mapNext State.countOne (exec (decode w) s) := by
  have hcycle : cycle s = runWord w s := by simp [cycle, hrun, h0, hw, Config.haltPc]
  rw [step, hcycle, runWord]
  cases exec (decode w) s <;> rfl

/-- From below 0x8000 the PC does not advance to the halt sentinel: the sum wraps only at 0xFFFF (R183). -/
theorem apc_ne_zero {s : State} (hpc : s.pc.toNat < 32768) : s.apc ≠ 0#16 := by
  rw [State.apc_eq]
  bv_omega

/-! ## Another memory that agrees on the words read -/

/-- An outcome but for the memory of its next state. -/
def forgetMemory (o : Host.Outcome State Fault Refusal) : Host.Outcome State Fault Refusal :=
  mapNext (fun t => t.setMem []) o

section

variable {s : State} {m : Memory} {a : Word}

@[simp] theorem pcRel9_setMem (off : BitVec 9) : pcRel9 (s.setMem m) off = pcRel9 s off := rfl

@[simp] theorem baseOff6_setMem (b : RegNum) (off : BitVec 6) : baseOff6 (s.setMem m) b off = baseOff6 s b off := rfl

/-- A read gives the same word or fault from a memory that agrees on the word read, and what follows need be compared for
that word only. -/
theorem forgetMemory_withRead_setMem {kind : AccessKind} {next next' : Word → Host.Outcome State Fault Refusal}
    (hm : m.readWord a.toNat = s.mem.readWord a.toNat)
    (hnext : forgetMemory (next' (s.mem.readWord a.toNat)) = forgetMemory (next (s.mem.readWord a.toNat))) :
    forgetMemory (withRead ((s.setMem m).memRead kind a) next') =
      forgetMemory (withRead (s.memRead kind a) next) := by
  have hread : (s.setMem m).memRead kind a = s.memRead kind a := by
    simp only [State.memRead, State.setMem_mem, hm]
  rw [hread]
  obtain ⟨-, hr⟩ | ⟨-, hr⟩ := memRead_cases s kind a <;> rw [hr]
  · exact hnext
  · rfl

/-- Whether a write faults does not depend on memory. -/
theorem forgetMemory_finishWrite_setMem (v : Word) :
    forgetMemory (finishWrite ((s.setMem m).memWrite a v)) = forgetMemory (finishWrite (s.memWrite a v)) := by
  rcases Nat.lt_or_ge a.toNat 32768 with ha | ha
  · rw [memWrite_ok ha, memWrite_ok ha]; rfl
  · rw [memWrite_error ha, memWrite_error ha]

/-- A branch reads the flags, which another memory leaves as they are. -/
theorem forgetMemory_execBr_setMem (n z p : Bool) (off : BitVec 9) :
    forgetMemory (execBr n z p off (s.setMem m)) = forgetMemory (execBr n z p off s) := by
  have hb : branchTaken (s.setMem m) n z p = branchTaken s n z p := rfl
  cases h : branchTaken s n z p with
  | true => rw [execBr_taken h, execBr_taken (hb.trans h)]; rfl
  | false => rw [execBr_notTaken h, execBr_notTaken (hb.trans h)]; rfl

end

/-- Memory reaches an instruction through the words it reads alone (R52): the registers, the flags and the addresses are those
of the state, and each access goes through the law of its operation. -/
theorem forgetMemory_exec_setMem {i : Instr} {s : State} {m : Memory}
    (h : ∀ a, (AccessKind.read, a) ∈ accesses i s → m.readWord a.toNat = s.mem.readWord a.toNat) :
    forgetMemory (exec i (s.setMem m)) = forgetMemory (exec i s) := by
  cases i with
  | addReg dr sr1 sr2 => rfl
  | addImm dr sr1 imm => rfl
  | andReg dr sr1 sr2 => rfl
  | andImm dr sr1 imm => rfl
  | not dr sr => rfl
  | lea dr off => rfl
  | jsr off => rfl
  | jsrr base => rfl
  | jmp base => rfl
  | rti => rfl
  | trap v => rfl
  | reservedD low => rfl
  | br n z p off => exact forgetMemory_execBr_setMem n z p off
  | ld dr off => exact forgetMemory_withRead_setMem (h _ (by simp [accesses])) rfl
  | ldr dr base off => exact forgetMemory_withRead_setMem (h _ (by simp [accesses])) rfl
  | ldi dr off =>
    exact forgetMemory_withRead_setMem (h _ (by simp [accesses]))
      (forgetMemory_withRead_setMem (h _ (by simp [accesses])) rfl)
  | st sr off => exact forgetMemory_finishWrite_setMem (s := s.advance) (s.getReg sr)
  | str sr base off => exact forgetMemory_finishWrite_setMem (s := s.advance) (s.getReg sr)
  | sti sr off =>
    exact forgetMemory_withRead_setMem (h _ (by simp [accesses]))
      (forgetMemory_finishWrite_setMem (s := s.advance) (s.getReg sr))

/-! ## The obligations -/

/-- Settles O43: the store leaves a running engine at the address it wrote, and that read after the write gives the word
the next step runs. -/
theorem storeIsSeenByTheNextFetch : Obligations.StoreIsSeenByTheNextFetch := by
  rintro s i sr a hi hrun h0 hpc hdec hwf ha hok rfl
  have hin : s.apc.toNat < 32768 := (firstBad_eq_none_iff _).1 hok _ ha
  have hstep : step s = .next (s.advance.setMem (s.mem.writeWord s.apc.toNat (s.getReg sr))).countOne := by
    rw [step_of_fetch hrun h0 (memRead_ok hpc), hdec, exec_store hi ha hok]
    rfl
  have hfetch : fetch (s.advance.setMem (s.mem.writeWord s.apc.toNat (s.getReg sr))).countOne = .ok (s.getReg sr) :=
    (memRead_ok hin).trans (congrArg Except.ok (Memory.readWord_writeWord_self _ hwf hin))
  exact ⟨_, hstep, rfl, hfetch, step_of_fetch hrun (apc_ne_zero hpc) hfetch⟩

/-- Settles O46: the table of accesses has at most one write, and an instruction that stores stores there. -/
theorem onlyTheListedWriteChangesMemory : Obligations.OnlyTheListedWriteChangesMemory :=
  fun i s _ h => ⟨accesses_countP_write_le_one i s, fun _ => exec_readByte_of_not_written h⟩

/-- Settles O47, instruction by instruction. -/
theorem onlyTheListedReadsMatter : Obligations.OnlyTheListedReadsMatter :=
  fun _ _ _ => forgetMemory_exec_setMem

end Sys2Proof

/-! # Encoding (`30_encoding.md`): the rows of the opcode table, the decoder and the encoder -/

namespace Sys2Proof

open Machine

/-! ## The row of a word (R88, R89) -/

/-- The word that has the given bits 15 to 11 and 5, and 0 elsewhere: the bits that choose the row (R86, R87). -/
def selectorWord (b15 b14 b13 b12 b11 b5 : Bool) : Word :=
  place (BitVec.ofBool b15) 15 ||| place (BitVec.ofBool b14) 14 ||| place (BitVec.ofBool b13) 13 |||
    place (BitVec.ofBool b12) 12 ||| place (BitVec.ofBool b11) 11 ||| place (BitVec.ofBool b5) 5

theorem and_selectorMask (w : Word) :
    w &&& 0xF820#16 = selectorWord (w.getLsbD 15) (w.getLsbD 14) (w.getLsbD 13) (w.getLsbD 12) (w.getLsbD 11)
      (w.getLsbD 5) :=
  and_mask_eq fun k hk => by
    interval_cases k <;> simp [selectorWord, getLsbD_place, -BitVec.getLsbD_eq_getElem]

theorem row_mem_opcodeTable (i : Instr) : i.row ∈ opcodeTable := by
  cases i <;> simp [opcodeTable, rowSamples, Instr.row]

/-- A row's mask asks for selector bits only. -/
theorem selectorMask_and_mask : ∀ r ∈ opcodeTable, 0xF820#16 &&& r.mask = r.mask := by decide

/-- No row ignores a bit of its own mask. -/
theorem not_ignored_and_mask : ∀ r ∈ opcodeTable, ~~~r.ignored &&& r.mask = r.mask := by decide

theorem selectorWord_matches_rowOfOpcode : ∀ b15 b14 b13 b12 b11 b5 : Bool,
    selectorWord b15 b14 b13 b12 b11 b5 &&& (rowOfOpcode b5 b11 (opcodeOfBits b15 b14 b13 b12)).mask =
      (rowOfOpcode b5 b11 (opcodeOfBits b15 b14 b13 b12)).matchBits := by decide

/-- A word matches the row of the instruction it decodes to. -/
theorem and_rowMask_decode (w : Word) : w &&& (decode w).row.mask = (decode w).row.matchBits := by
  rw [← selectorMask_and_mask _ (row_mem_opcodeTable _), ← BitVec.and_assoc, and_selectorMask, row_decode]
  exact selectorWord_matches_rowOfOpcode ..

/-! ## Decoding a word whose row is known -/

/-- The opcode of an instruction (R87). -/
def Instr.opcode : Instr → Opcode
  | .br .. => .br
  | .addReg .. | .addImm .. => .add
  | .ld .. => .ld
  | .st .. => .st
  | .jsrr .. | .jsr .. => .jsr
  | .andReg .. | .andImm .. => .and
  | .ldr .. => .ldr
  | .str .. => .str
  | .rti => .rti
  | .not .. => .not
  | .ldi .. => .ldi
  | .sti .. => .sti
  | .jmp .. => .jmp
  | .reservedD .. => .reserved
  | .lea .. => .lea
  | .trap .. => .trap

/-- The instruction of i's row with its operands read from the word w, at the positions of R85. -/
def Instr.operandsFrom (w : Word) : Instr → Instr
  | .br .. => .br (w.getLsbD 11) (w.getLsbD 10) (w.getLsbD 9) (slice w 0 9)
  | .addReg .. => .addReg (regOfField (slice w 9 3)) (regOfField (slice w 6 3)) (regOfField (slice w 0 3))
  | .addImm .. => .addImm (regOfField (slice w 9 3)) (regOfField (slice w 6 3)) (slice w 0 5)
  | .ld .. => .ld (regOfField (slice w 9 3)) (slice w 0 9)
  | .st .. => .st (regOfField (slice w 9 3)) (slice w 0 9)
  | .jsrr .. => .jsrr (regOfField (slice w 6 3))
  | .jsr .. => .jsr (slice w 0 11)
  | .andReg .. => .andReg (regOfField (slice w 9 3)) (regOfField (slice w 6 3)) (regOfField (slice w 0 3))
  | .andImm .. => .andImm (regOfField (slice w 9 3)) (regOfField (slice w 6 3)) (slice w 0 5)
  | .ldr .. => .ldr (regOfField (slice w 9 3)) (regOfField (slice w 6 3)) (slice w 0 6)
  | .str .. => .str (regOfField (slice w 9 3)) (regOfField (slice w 6 3)) (slice w 0 6)
  | .rti => .rti
  | .not .. => .not (regOfField (slice w 9 3)) (regOfField (slice w 6 3))
  | .ldi .. => .ldi (regOfField (slice w 9 3)) (slice w 0 9)
  | .sti .. => .sti (regOfField (slice w 9 3)) (slice w 0 9)
  | .jmp .. => .jmp (regOfField (slice w 6 3))
  | .reservedD .. => .reservedD (slice w 0 12)
  | .lea .. => .lea (regOfField (slice w 9 3)) (slice w 0 9)
  | .trap .. => .trap (slice w 0 8)

theorem row_operandsFrom (w : Word) (i : Instr) : (i.operandsFrom w).row = i.row := by cases i <;> rfl

/-- A word that matches an instruction's row has the instruction's opcode. -/
theorem opcodeOf_of_and_rowMask {w : Word} {i : Instr} (h : w &&& i.row.mask = i.row.matchBits) :
    opcodeOf (decodeFields w).opcode = i.opcode :=
  opcodeOf_of_and_mask h (by cases i <;> simp [Instr.row]) i.opcode
    (by cases i <;> simp [Instr.row, Instr.opcode, opcodeOfBits])

/-- A word that matches an instruction's row decodes to that instruction but for the operands, which are the word's own:
the opcode selects the arm, and bit 5 of ADD and AND and bit 11 of JSR and JSRR select the form. -/
theorem decode_of_and_rowMask {w : Word} {i : Instr} (h : w &&& i.row.mask = i.row.matchBits) :
    decode w = i.operandsFrom w := by
  have hop := opcodeOf_of_and_rowMask h
  cases i with
  | addReg | addImm | andReg | andImm =>
    simp only [Instr.row] at h
    have h5 : (decodeFields w).immflag = _ := getLsbD_of_and_mask h (i := 5) rfl
    simp only [decode, selectInstr, hop, Instr.opcode, h5]
    rfl
  | jsr | jsrr =>
    simp only [Instr.row] at h
    have h11 : (decodeFields w).jsrflag = _ := getLsbD_of_and_mask h (i := 11) rfl
    simp only [decode, selectInstr, hop, Instr.opcode, h11]
    rfl
  | reservedD =>
    simp only [decode, selectInstr, hop, Instr.opcode, lowTwelve_decodeFields]
    rfl
  | _ =>
    simp only [decode, selectInstr, hop, Instr.opcode]
    rfl

/-! ## Encoding -/

/-- The encoder's word matches the row of its instruction (R88). -/
theorem encode_and_rowMask : ∀ i : Instr, encode i &&& i.row.mask = i.row.matchBits
  | .br n z p off => (Laws.EncodesInRow.br n z p off).1
  | .addReg dr sr1 sr2 => (Laws.EncodesInRow.addReg dr sr1 sr2).1
  | .addImm dr sr1 imm => (Laws.EncodesInRow.addImm dr sr1 imm).1
  | .ld dr off => (Laws.EncodesInRow.ld dr off).1
  | .st sr off => (Laws.EncodesInRow.st sr off).1
  | .jsrr b => (Laws.EncodesInRow.jsrr b).1
  | .jsr off => (Laws.EncodesInRow.jsr off).1
  | .andReg dr sr1 sr2 => (Laws.EncodesInRow.andReg dr sr1 sr2).1
  | .andImm dr sr1 imm => (Laws.EncodesInRow.andImm dr sr1 imm).1
  | .ldr dr b off => (Laws.EncodesInRow.ldr dr b off).1
  | .str sr b off => (Laws.EncodesInRow.str sr b off).1
  | .rti => Laws.EncodesInRow.rti.1
  | .not dr sr => (Laws.EncodesInRow.not dr sr).1
  | .ldi dr off => (Laws.EncodesInRow.ldi dr off).1
  | .sti sr off => (Laws.EncodesInRow.sti sr off).1
  | .jmp b => (Laws.EncodesInRow.jmp b).1
  | .reservedD low => (Laws.EncodesInRow.reservedD low).1
  | .lea dr off => (Laws.EncodesInRow.lea dr off).1
  | .trap v => (Laws.EncodesInRow.trap v).1

/-- Every operand is read back from where the encoder placed it: no other field of its pattern overlaps it. -/
theorem operandsFrom_encode (i : Instr) : i.operandsFrom (encode i) = i := by
  cases i with
  | br n z p off =>
    simp [Instr.operandsFrom, encode, slice_or, slice_place_self, slice_place_disjoint, getLsbD_place,
      -BitVec.getLsbD_eq_getElem]
  | _ => simp [Instr.operandsFrom, encode, slice_or, slice_place_self, slice_place_disjoint, slice_ofNat]

theorem decode_encode (i : Instr) : decode (encode i) = i := by
  rw [decode_of_and_rowMask (encode_and_rowMask i), operandsFrom_encode]

/-! ## Ignored bits (R91) -/

/-- Two words with no difference on a mask agree on it. -/
theorem and_eq_and_of_xor_and {w w' m : Word} (h : (w ^^^ w') &&& m = 0#16) : w' &&& m = w &&& m := by
  refine (BitVec.xor_eq_zero_iff.1 (h ▸ ?_)).symm
  ext k hk
  simp [Bool.and_xor_distrib_right]

/-- A slice inside a mask depends only on the word's bits in the mask. -/
theorem slice_of_and_mask {w mask m : Word} {lo n : Nat} (h : w &&& mask = m)
    (hm : slice mask lo n = BitVec.allOnes n) : slice w lo n = slice m lo n := by
  refine slice_congr fun i hi => getLsbD_of_and_mask h ?_
  have hbit := congrArg (BitVec.getLsbD · i) hm
  rwa [getLsbD_slice, BitVec.getLsbD_allOnes, decide_eq_true hi, Bool.true_and] at hbit

/-- Words that agree on a mask have the same slices inside it. -/
theorem slice_eq_of_and_mask_eq {w w' mask : Word} {lo n : Nat} (h : w' &&& mask = w &&& mask)
    (hm : slice mask lo n = BitVec.allOnes n) : slice w' lo n = slice w lo n :=
  (slice_of_and_mask h hm).trans (slice_of_and_mask rfl hm).symm

/-- Outside the reserved opcode, operands are read from bits the row does not ignore. -/
theorem operandsFrom_congr {w w' : Word} {i : Instr} (hi : i.opcode ≠ .reserved)
    (h : w' &&& ~~~i.row.ignored = w &&& ~~~i.row.ignored) : i.operandsFrom w' = i.operandsFrom w := by
  cases i with
  | reservedD => exact absurd rfl hi
  | rti => rfl
  | addReg | andReg =>
    simp only [Instr.row] at h
    simp only [Instr.operandsFrom, slice_eq_of_and_mask_eq h (lo := 9) (n := 3) rfl,
      slice_eq_of_and_mask_eq h (lo := 6) (n := 3) rfl, slice_eq_of_and_mask_eq h (lo := 0) (n := 3) rfl]
  | not =>
    simp only [Instr.row] at h
    simp only [Instr.operandsFrom, slice_eq_of_and_mask_eq h (lo := 9) (n := 3) rfl,
      slice_eq_of_and_mask_eq h (lo := 6) (n := 3) rfl]
  | jsrr | jmp =>
    simp only [Instr.row] at h
    simp only [Instr.operandsFrom, slice_eq_of_and_mask_eq h (lo := 6) (n := 3) rfl]
  | trap =>
    simp only [Instr.row] at h
    simp only [Instr.operandsFrom, slice_eq_of_and_mask_eq h (lo := 0) (n := 8) rfl]
  | _ =>
    simp only [Instr.row] at h
    have hall : w' &&& BitVec.allOnes 16 = w &&& BitVec.allOnes 16 := h
    rw [BitVec.and_allOnes, BitVec.and_allOnes] at hall
    rw [hall]

/-- Only words of opcode 0xD decode to the reserved instruction (R90). -/
theorem field_opcode_of_reserved {w : Word} (h : (decode w).opcode = .reserved) : field w 15 12 = 0xD := by
  have hrow := and_rowMask_decode w
  cases hi : decode w with
  | reservedD low =>
    simp only [hi, Instr.row] at hrow
    exact (toNat_slice w 12 4).symm.trans (congrArg BitVec.toNat (slice_of_and_mask hrow rfl))
  | _ => rw [hi] at h; cases h

theorem decode_eq_of_differ_in_ignored {w w' : Word} (hD : field w 15 12 ≠ 0xD)
    (h : (w ^^^ w') &&& ~~~(decode w).row.ignored = 0#16) : decode w' = decode w := by
  have hused := and_eq_and_of_xor_and h
  have hrow : w' &&& (decode w).row.mask = (decode w).row.matchBits := by
    have hmask := not_ignored_and_mask _ (row_mem_opcodeTable (decode w))
    rw [← hmask, ← BitVec.and_assoc, hused, BitVec.and_assoc, hmask, and_rowMask_decode]
  calc decode w' = (decode w).operandsFrom w' := decode_of_and_rowMask hrow
    _ = (decode w).operandsFrom w := operandsFrom_congr (fun hop => hD (field_opcode_of_reserved hop)) hused
    _ = decode w := (decode_of_and_rowMask (and_rowMask_decode w)).symm

/-! ## Signed fields (R97) -/

theorem signedFits_iff (n : Nat) (v : Int) : signedFits n v = true ↔ -(2 ^ (n - 1)) ≤ v ∧ v ≤ 2 ^ (n - 1) - 1 := by
  simp [signedFits]

theorem toNat_fieldOfInt (n : Nat) (v : Int) : ((fieldOfInt n v).toNat : Int) = v % 2 ^ n := by
  have hpos : (0 : Int) < 2 ^ n := by positivity
  simp [fieldOfInt, BitVec.toNat_ofInt, Int.emod_nonneg v hpos.ne']

theorem sext_fieldOfInt {n : Nat} {v : Int} (hn : 1 ≤ n) (h : signedFits n v = true) : sext (fieldOfInt n v) = v := by
  obtain ⟨hlo, hhi⟩ := (signedFits_iff n v).1 h
  rw [sext_eq_toInt]
  exact BitVec.toInt_ofInt_eq_self hn hlo (by omega)

/-! ## The obligations -/

/-- Settles O9: the encoder's word matches the row of its instruction, and each operand is read back from its place. -/
theorem decodeOfEncodeIsIdentity : Obligations.DecodeOfEncodeIsIdentity := decode_encode

/-- Settles O10: the selector bits give the row, and a word that matches a row decodes to an instruction of that row. -/
theorem everyWordMatchesExactlyItsRow : Obligations.EveryWordMatchesExactlyItsRow := by
  intro w
  refine ⟨row_mem_opcodeTable _, and_rowMask_decode w, fun r hr hw => ?_⟩
  obtain ⟨i, -, rfl⟩ := List.mem_map.1 hr
  rw [decode_of_and_rowMask hw, row_operandsFrom]

/-- Settles O11: neither a row's mask nor an operand it reads has an ignored bit, and TRAP's arm has no vector in it. -/
theorem ignoredBitsHaveNoEffect : Obligations.IgnoredBitsHaveNoEffect :=
  ⟨fun _ _ => decode_eq_of_differ_in_ignored, fun _ _ _ => rfl⟩

/-- Settles O12. -/
theorem signedFieldHoldsItsValue : Obligations.SignedFieldHoldsItsValue :=
  fun n v hn => ⟨signedFits_iff n v, toNat_fieldOfInt n v, sext_fieldOfInt hn⟩

/-- Settles O8: ten fixed words, decoded. -/
theorem wordsOfThePatternsDecode : Obligations.WordsOfThePatternsDecode := by
  unfold Obligations.WordsOfThePatternsDecode
  decide

end Sys2Proof

/-! # Datapath units (`40_datapath_units.md`): the sign extender, the adder, the condition-code updater -/

namespace Sys2Proof

open Machine

/-! ## The sign extender (R110) -/

section

variable {n : Nat} {v : BitVec n}

theorem sext_of_lt (h : v.toNat < 2 ^ (n - 1)) : sext v = v.toNat := by
  have hmsb : v.msb = false := by simp [BitVec.msb_eq_decide, h]
  simp [sext, hmsb]

theorem sext_of_ge (h : 2 ^ (n - 1) ≤ v.toNat) : sext v = (v.toNat : Int) - 2 ^ n := by
  have hmsb : v.msb = true := by simp [BitVec.msb_eq_decide, h]
  simp [sext, hmsb]

end

/-- A signed field reduced to a word is its sign-extended pattern (R9, R110). -/
theorem to16_sext {n : Nat} (v : BitVec n) : to16 (sext v) = v.signExtend 16 := by
  rw [sext_eq_toInt, to16, BitVec.signExtend]

/-- The low bits of a field's sign-extended pattern are the field. -/
theorem setWidth_to16_sext {n : Nat} (hn : n ≤ 16) (v : BitVec n) : (to16 (sext v)).setWidth n = v := by
  rw [to16_sext]
  ext i hi
  have h16 : i < 16 := Nat.lt_of_lt_of_le hi hn
  simp [BitVec.getElem_signExtend, hi, h16]

/-! ## The adder (R111) -/

theorem add16_comm {wa wb : Nat} (a : BitVec wa) (b : BitVec wb) : add16 a b = add16 b a :=
  congrArg to16 (Int.add_comm _ _)

/-- Reduction to a word is additive, so the adder is the sum of the sign-extended patterns. -/
theorem add16_eq_add {wa wb : Nat} (a : BitVec wa) (b : BitVec wb) : add16 a b = to16 (sext a) + to16 (sext b) :=
  BitVec.ofInt_add _ _

/-- A word is its own pattern, so a word on the left is added as it is. -/
theorem add16_word {n : Nat} (a : Word) (b : BitVec n) : add16 a b = a + b.signExtend 16 := by
  rw [add16_eq_add, to16_sext, to16_sext, BitVec.signExtend_eq]

/-- A one-bit 1 counts as -1 (C4). -/
theorem add16_oneBit (x : Word) : add16 x 1#1 = x - 1#16 := by
  rw [add16_word, BitVec.sub_eq_add_neg]
  rfl

/-- A two-bit 1 counts as 1. -/
theorem add16_twoBit (x : Word) : add16 x 1#2 = x + 1#16 := by
  rw [add16_word]
  rfl

/-! ## The condition-code updater (R112) -/

/-- The three flags are the three ranges of the value. -/
theorem updateFlags_eq_ranges (v : Word) :
    updateFlags v =
      (decide (0x8000 ≤ v.toNat), decide (v.toNat = 0), decide (0x0001 ≤ v.toNat ∧ v.toNat ≤ 0x7FFF)) := by
  refine Prod.ext ?_ (Prod.ext ?_ ?_)
  · exact Bool.eq_iff_iff.2 ((updateFlags_n v).trans decide_eq_true_iff.symm)
  · exact Bool.eq_iff_iff.2 ((updateFlags_z v).trans decide_eq_true_iff.symm)
  · exact Bool.eq_iff_iff.2 ((updateFlags_p v).trans decide_eq_true_iff.symm)

theorem updateFlags_zero : updateFlags 0#16 = (false, true, false) := rfl

theorem updateFlags_of_negative {v : Word} (h : 0x8000 ≤ v.toNat) : updateFlags v = (true, false, false) := by
  have hz : v.toNat ≠ 0 := by omega
  have hp : ¬ v.toNat ≤ 0x7FFF := by omega
  simp [updateFlags_eq_ranges, h, hz, hp]

theorem updateFlags_of_positive {v : Word} (hlo : 0x0001 ≤ v.toNat) (hhi : v.toNat ≤ 0x7FFF) :
    updateFlags v = (false, false, true) := by
  have hz : v.toNat ≠ 0 := by omega
  have hn : ¬ 0x8000 ≤ v.toNat := by omega
  simp [updateFlags_eq_ranges, hn, hz, hlo, hhi]

/-- A result leaves the flags of the value in its register. -/
theorem flagsOf_writeResult (s : State) (dr : RegNum) (v : Word) :
    FlagsOf ((s.writeResult dr v).getReg dr) (s.writeResult dr v) := by
  rw [State.writeResult_getReg_self]
  exact ⟨updateFlags_z v, updateFlags_n v, updateFlags_p v⟩

/-- An instruction that performs `setcc` leaves the flags of the value in its destination register. -/
theorem exec_flagsOf_dest {i : Instr} {s t : State} (h : exec i s = .next t) (hi : writesFlags i = true) :
    ∃ d, destRegs i = [d] ∧ FlagsOf (t.getReg d) t := by
  cases exec_next_effect h with
  | result dr v dest => exact ⟨dr, dest, flagsOf_writeResult s dr v⟩
  | register _ _ _ _ flags => simp [flags] at hi
  | pcOnly _ _ flags => simp [flags] at hi
  | store _ _ _ _ _ flags => simp [flags] at hi

/-- Any other instruction leaves the flags as they were (C2). -/
theorem exec_sameFlags {i : Instr} {s t : State} (h : exec i s = .next t) (hi : writesFlags i = false) :
    SameFlags s t := by
  cases exec_next_effect h with
  | result _ _ _ flags => simp [flags] at hi
  | register => exact ⟨rfl, rfl, rfl⟩
  | pcOnly => exact ⟨rfl, rfl, rfl⟩
  | store => exact ⟨rfl, rfl, rfl⟩

/-! ## The obligations -/

/-- Settles O13: the top bit decides the case, and the low bits of the sign-extended pattern are the field's own. -/
theorem signExtensionIsTwosComplement : Obligations.SignExtensionIsTwosComplement := by
  intro n _ hn v
  have hlo : -(2 ^ (n - 1)) ≤ sext v := sext_eq_toInt v ▸ BitVec.le_toInt v
  have hhi : sext v ≤ 2 ^ (n - 1) - 1 := sext_eq_toInt v ▸ Int.le_sub_one_of_lt (BitVec.toInt_lt)
  exact ⟨sext_of_lt, sext_of_ge, hlo, hhi, setWidth_to16_sext hn v⟩

/-- Settles O14: reduction to a word is additive, and a word reduces to itself. -/
theorem adderIsTheModularSum : Obligations.AdderIsTheModularSum :=
  ⟨fun _ _ a b => ⟨toNat_to16 _, add16_comm a b, add16_eq_add a b⟩, fun _ a b _ => add16_word a b,
    fun x => ⟨add16_oneBit x, add16_twoBit x⟩⟩

/-- Settles O15: an instruction's effect is a result with its flags, or leaves the flags alone. -/
theorem flagsFollowTheWrittenValue : Obligations.FlagsFollowTheWrittenValue := by
  refine ⟨fun v => ⟨?_, updateFlags_of_negative, updateFlags_of_positive⟩, fun i s t h => ?_⟩
  · rintro rfl
    exact updateFlags_zero
  · exact ⟨exec_flagsOf_dest h, exec_sameFlags h⟩

end Sys2Proof

/-! # Operate instructions (`41_operate.md`): ADD, AND and NOT -/

namespace Sys2Proof

open Machine

/-! ## Operand fields (R8, R85) -/

/-- A slice as a number is the field the spec names by its top and bottom bits (R8). -/
theorem toNat_slice_eq_field (w : Word) (lo n : Nat) : (slice w lo (n + 1)).toNat = field w (lo + n) lo := by
  rw [toNat_slice, field, Nat.add_sub_cancel_left]

theorem val_regOfField_slice_eq_field (w : Word) (lo : Nat) : (regOfField (slice w lo 3)).val = field w (lo + 2) lo :=
  toNat_slice_eq_field w lo 2

/-! ## What a result leaves besides its value (R112, R115, R116) -/

/-- Whatever the result: the flags are those of the value written, the PC advances, and the rest of the state is kept. -/
theorem writeResult_flags_pc_frame (s : State) (dr : RegNum) (v : Word) :
    FlagsOf ((s.writeResult dr v).getReg dr) (s.writeResult dr v) ∧ (s.writeResult dr v).pc = s.apc ∧
      SameRegsBut [dr] s (s.writeResult dr v) ∧ SameMemory s (s.writeResult dr v) ∧
      SameControl s (s.writeResult dr v) :=
  ⟨flagsOf_writeResult s dr v, s.writeResult_pc dr v, fun _ hr => s.writeResult_getReg_ne v (List.ne_of_not_mem_cons hr),
    fun k => congrArg (Memory.readByte · k) (s.writeResult_mem dr v), s.writeResult_run dr v, s.writeResult_icount dr v⟩

/-! ## The values (R111, R130, R133) -/

/-- With two words the adder is unsigned addition modulo 65536. -/
theorem toNat_add16_words (a b : Word) : (add16 a b).toNat = (a.toNat + b.toNat) % 65536 := by
  rw [add16_word, BitVec.signExtend_eq, BitVec.toNat_add]

theorem immPattern_of_lt {imm5 : BitVec 5} (h : imm5.toNat < 0x10) : immPattern imm5 = imm5.setWidth 16 := by
  have hmsb : imm5.msb = false := by simp [BitVec.msb_eq_decide, h]
  rw [immPattern, to16_sext, BitVec.signExtend_eq_setWidth_of_msb_false hmsb]

/-- The sign bit fills the eleven bits above the field. -/
theorem immPattern_of_ge {imm5 : BitVec 5} (h : 0x10 ≤ imm5.toNat) :
    immPattern imm5 = 0xFFE0#16 ||| imm5.setWidth 16 := by
  have hmsb : imm5.msb = true := by simp [BitVec.msb_eq_decide, h]
  rw [immPattern, to16_sext, BitVec.signExtend_eq_append_of_le (by decide), hmsb, BitVec.append_def]
  rfl

/-! ## The obligations -/

/-- Settles O17: two words on the adder are added unsigned. -/
theorem addRegisterAddsModulo65536 : Obligations.AddRegisterAddsModulo65536 := by
  refine ⟨fun w hw => ⟨_, _, _, decode_of_and_rowMask (i := .addReg 0 0 0) hw, val_regOfField_slice_eq_field w 9,
    val_regOfField_slice_eq_field w 6, val_regOfField_slice_eq_field w 0⟩,
    fun dr sr1 sr2 s => ⟨_, rfl, ?_, writeResult_flags_pc_frame s dr _⟩⟩
  rw [State.writeResult_getReg_self, toNat_add16_words]

/-- Settles O18: the adder reads the word unsigned and the immediate signed. -/
theorem addImmediateAddsTheSignedField : Obligations.AddImmediateAddsTheSignedField := by
  refine ⟨fun w hw => ⟨_, _, _, decode_of_and_rowMask (i := .addImm 0 0 0) hw, val_regOfField_slice_eq_field w 9,
    val_regOfField_slice_eq_field w 6, toNat_slice_eq_field w 0 4⟩,
    fun dr sr1 imm5 s => ⟨_, rfl, ?_, writeResult_flags_pc_frame s dr _⟩⟩
  rw [State.writeResult_getReg_self, toNat_add16_word]

/-- Settles O19: a bit of the conjunction is the conjunction of the bits. -/
theorem andRegisterIsBitwise : Obligations.AndRegisterIsBitwise := by
  refine ⟨fun w hw => ⟨_, _, _, decode_of_and_rowMask (i := .andReg 0 0 0) hw, val_regOfField_slice_eq_field w 9,
    val_regOfField_slice_eq_field w 6, val_regOfField_slice_eq_field w 0⟩,
    fun dr sr1 sr2 s => ⟨_, rfl, fun k _ => ?_, writeResult_flags_pc_frame s dr _⟩⟩
  rw [State.writeResult_getReg_self, BitVec.getLsbD_and]

/-- Settles O20: the immediate's pattern is the field itself, or the field under eleven ones. -/
theorem andImmediateMasksWithTheSignedField : Obligations.AndImmediateMasksWithTheSignedField := by
  refine ⟨fun w hw => ⟨_, _, _, decode_of_and_rowMask (i := .andImm 0 0 0) hw, val_regOfField_slice_eq_field w 9,
    val_regOfField_slice_eq_field w 6, toNat_slice_eq_field w 0 4⟩,
    fun dr sr1 imm5 s => ⟨_, rfl, fun h => ?_, fun h => ?_, writeResult_flags_pc_frame s dr _⟩⟩
  · rw [State.writeResult_getReg_self, immPattern_of_lt h]
  · rw [State.writeResult_getReg_self, immPattern_of_ge h]

/-- Settles O21: the complement of a word is its distance from 0xFFFF. -/
theorem notComplementsTheSource : Obligations.NotComplementsTheSource := by
  refine ⟨fun w hw => ⟨_, _, decode_of_and_rowMask (i := .not 0 0) hw, val_regOfField_slice_eq_field w 9,
    val_regOfField_slice_eq_field w 6⟩,
    fun dr sr s => ⟨_, rfl, ?_, writeResult_flags_pc_frame s dr _⟩⟩
  rw [State.writeResult_getReg_self, BitVec.toNat_not]

end Sys2Proof

/-! # Data movement (`42_data_movement.md`): the loads, LEA and the stores -/

namespace Sys2Proof

open Machine

/-! ## Operand fields (R85) -/

section

variable {w : Word}

/-- The operands of LD, LDI, LEA, ST and STI: a register at bits 11:9 and PCoffset9 at bits 8:0. -/
theorem exists_reg_off9_of_decode {f : RegNum → BitVec 9 → Instr}
    (h : decode w = f (regOfField (slice w 9 3)) (slice w 0 9)) :
    ∃ r off9, decode w = f r off9 ∧ r.val = field w 11 9 ∧ off9.toNat = field w 8 0 :=
  ⟨_, _, h, val_regOfField_slice_eq_field w 9, toNat_slice_eq_field w 0 8⟩

/-- The operands of LDR and STR: a register at bits 11:9, BaseR at bits 8:6 and offset6 at bits 5:0. -/
theorem exists_reg_base_off6_of_decode {f : RegNum → RegNum → BitVec 6 → Instr}
    (h : decode w = f (regOfField (slice w 9 3)) (regOfField (slice w 6 3)) (slice w 0 6)) :
    ∃ r b off6, decode w = f r b off6 ∧ r.val = field w 11 9 ∧ b.val = field w 8 6 ∧ off6.toNat = field w 5 0 :=
  ⟨_, _, _, h, val_regOfField_slice_eq_field w 9, val_regOfField_slice_eq_field w 6, toNat_slice_eq_field w 0 5⟩

end

/-! ## What a load and a store leave -/

section

variable {i : Instr} {s : State}

/-- An instruction that ends with a result v leaves v in DR with its flags, and keeps the rest of the state but the PC. -/
theorem exists_next_of_result {dr : RegNum} {v : Word} (h : exec i s = .next (s.writeResult dr v)) :
    ∃ t, exec i s = .next t ∧ t.getReg dr = v ∧ FlagsOf (t.getReg dr) t ∧
      t.pc = s.apc ∧ SameRegsBut [dr] s t ∧ SameMemory s t ∧ SameControl s t :=
  ⟨_, h, s.writeResult_getReg_self dr v, writeResult_flags_pc_frame s dr v⟩

/-- An instruction that ends with a store of v at an address that has a cell leaves v there (read back in a canonical
memory), and keeps the rest of the state but the PC. -/
theorem exists_next_of_store {a v : Word} (ha : a.toNat < 32768)
    (h : exec i s = .next (s.advance.setMem (s.mem.writeWord a.toNat v))) :
    ∃ t, exec i s = .next t ∧ (s.mem.wf = true → t.mem.readWord a.toNat = v) ∧ SameMemoryBut a s t ∧
      SameFlags s t ∧ t.pc = s.apc ∧ SameRegsBut [] s t ∧ SameControl s t :=
  ⟨_, h, fun hwf => Memory.readWord_writeWord_self v hwf ha, fun _ => Memory.readByte_writeWord_ne s.mem v,
    ⟨rfl, rfl, rfl⟩, rfl, fun _ _ => rfl, rfl, rfl⟩

end

/-- With the word that STI stored in memory, an LDI through the same pointer cell loads it: the cell still holds the pointer,
since the store went to another word (R141, R145; D19). -/
theorem execLdi_of_stored {u : State} {m : Memory} {ptr v : Word} {dr : RegNum} {off9 : BitVec 9} (hm : m.wf = true)
    (hu : u.mem = m.writeWord ptr.toNat v) (hptr : m.readWord (pcRel9 u off9).toNat = ptr) (hne : ptr ≠ pcRel9 u off9)
    (hcell : (pcRel9 u off9).toNat < 32768) (hin : ptr.toNat < 32768) :
    execLdi dr off9 u = .next (u.writeResult dr v) := by
  have hkept : u.mem.readWord (pcRel9 u off9).toNat = ptr := by
    rw [hu, Memory.readWord_writeWord_ne m v fun h => hne (BitVec.eq_of_toNat_eq h.symm), hptr]
  have hstored : u.mem.readWord ptr.toNat = v := by
    rw [hu, Memory.readWord_writeWord_self v hm hin]
  rw [execLdi_inRange hcell (hkept ▸ hin), hkept, hstored]

/-! ## The obligations -/

/-- Settles O22: one read, in range or not. -/
theorem ldLoadsTheWordAtThePcRelativeAddress : Obligations.LdLoadsTheWordAtThePcRelativeAddress :=
  ⟨fun _ hw => exists_reg_off9_of_decode (decode_of_and_rowMask (i := .ld 0 0) hw),
    fun _ off9 s => ⟨toNat_add16_word s.apc off9, fun h => exists_next_of_result (execLd_inRange h), execLd_outOfRange⟩⟩

/-- Settles O23: two reads, the pointer's checked first. -/
theorem ldiLoadsThroughThePointerCell : Obligations.LdiLoadsThroughThePointerCell := by
  refine ⟨fun _ hw => exists_reg_off9_of_decode (decode_of_and_rowMask (i := .ldi 0 0) hw), ?_⟩
  rintro dr off9 s ptr rfl
  exact ⟨toNat_add16_word s.apc off9, fun h hp => exists_next_of_result (execLdi_inRange h hp), execLdi_outOfRange,
    execLdi_pointerOutOfRange⟩

/-- Settles O24: one read, at an address taken from the old base register. -/
theorem ldrLoadsTheWordAtBasePlusOffset : Obligations.LdrLoadsTheWordAtBasePlusOffset :=
  ⟨fun _ hw => exists_reg_base_off6_of_decode (decode_of_and_rowMask (i := .ldr 0 0 0) hw),
    fun _ b off6 s => ⟨toNat_baseOff6 s b off6, fun h => exists_next_of_result (execLdr_inRange h),
      execLdr_outOfRange⟩⟩

/-- Settles O25: LEA has one path, and it writes a register without `setcc`. -/
theorem leaWritesTheAddressAndNoFlag : Obligations.LeaWritesTheAddressAndNoFlag := by
  refine ⟨fun _ hw => exists_reg_off9_of_decode (decode_of_and_rowMask (i := .lea 0 0) hw), fun dr off9 s =>
    ⟨s.advance.setReg dr (pcRel9 s off9), rfl, ?_, ⟨rfl, rfl, rfl⟩, rfl, fun r hr => ?_, fun _ => rfl, rfl, rfl⟩⟩
  · rw [State.setReg_getReg_self]
    exact toNat_add16_word s.apc off9
  · exact s.advance.setReg_getReg_ne _ (List.ne_of_not_mem_cons hr)

/-- Settles O26: one write, in range or not. -/
theorem stStoresAtThePcRelativeAddress : Obligations.StStoresAtThePcRelativeAddress :=
  ⟨fun _ hw => exists_reg_off9_of_decode (decode_of_and_rowMask (i := .st 0 0) hw),
    fun _ off9 s => ⟨toNat_add16_word s.apc off9, fun h => exists_next_of_store h (execSt_inRange h), execSt_outOfRange⟩⟩

/-- Settles O27: the pointer's read, checked first, and then the write. -/
theorem stiStoresThroughThePointerCell : Obligations.StiStoresThroughThePointerCell := by
  refine ⟨fun _ hw => exists_reg_off9_of_decode (decode_of_and_rowMask (i := .sti 0 0) hw), ?_⟩
  rintro sr off9 s ptr rfl
  exact ⟨toNat_add16_word s.apc off9, fun h hp => exists_next_of_store hp (execSti_inRange h hp), execSti_outOfRange,
    execSti_pointerOutOfRange⟩

/-- Settles O28: one write, at an address taken from the base register. -/
theorem strStoresAtBasePlusOffset : Obligations.StrStoresAtBasePlusOffset :=
  ⟨fun _ hw => exists_reg_base_off6_of_decode (decode_of_and_rowMask (i := .str 0 0 0) hw),
    fun _ b off6 s => ⟨toNat_baseOff6 s b off6, fun h => exists_next_of_store h (execStr_inRange h),
      execStr_outOfRange⟩⟩

/-- Settles O44: STI's pointer cell and its target are both in range, and the store left the pointer cell alone. -/
theorem stiThenLdiRoundTrips : Obligations.StiThenLdiRoundTrips := by
  intro s t u sr dr off off' hwf hsti hmem hcell hne
  obtain ⟨ha, hp, rfl⟩ := execSti_next_inv hsti
  have hldi : execLdi dr off' u = .next (u.writeResult dr (s.getReg sr)) :=
    execLdi_of_stored hwf hmem (by rw [hcell]) (hcell ▸ hne) (hcell ▸ ha) hp
  exact ⟨_, hldi, u.writeResult_getReg_self dr _⟩

end Sys2Proof

/-! # Control transfer (`43_control.md`): BR, JMP and RET, JSR and JSRR -/

namespace Sys2Proof

open Machine

/-! ## Operand fields (R81, R85) -/

/-- A single bit as a number is the one-bit field the spec names by its position (R8). -/
theorem toNat_getLsbD_eq_field (w : Word) (k : Nat) : (w.getLsbD k).toNat = field w k k := by
  rw [← BitVec.testBit_toNat, Nat.toNat_testBit, field, Nat.sub_self, Nat.zero_add, pow_one]

/-! ## Whether a branch is taken (R160) -/

theorem branchTaken_iff (s : State) (n z p : Bool) :
    branchTaken s n z p = true ↔ n = true ∧ s.n = true ∨ z = true ∧ s.z = true ∨ p = true ∧ s.p = true := by
  simp [branchTaken, or_assoc]

theorem branchTaken_noCondition (s : State) : branchTaken s false false false = false := rfl

/-- Of three flags that sum to one, some flag is set. -/
theorem branchTaken_allConditions {s : State} (hs : OneHot s) : branchTaken s true true true = true := by
  by_contra h
  obtain ⟨hn, hz, hp⟩ : s.n = false ∧ s.z = false ∧ s.p = false := by simpa [branchTaken_iff] using h
  simp [OneHot, hn, hz, hp] at hs

/-! ## What a jump and a call leave -/

section

variable {i : Instr} {s : State} {target : Word}

/-- An instruction that ends with a jump to the target changes the PC alone. -/
theorem exists_next_of_jump (h : exec i s = .next (s.advance.setPc target)) :
    ∃ t, exec i s = .next t ∧ t.pc = target ∧ SameFlags s t ∧ SameRegsBut [] s t ∧ SameMemory s t ∧ SameControl s t :=
  ⟨_, h, rfl, ⟨rfl, rfl, rfl⟩, fun _ _ => rfl, fun _ => rfl, rfl, rfl⟩

/-- An instruction that ends with a call of the target changes the PC and the link register alone. -/
theorem exists_next_of_call (h : exec i s = .next ((s.advance.setReg linkReg s.apc).setPc target)) :
    ∃ t, exec i s = .next t ∧ t.getReg linkReg = s.apc ∧ t.pc = target ∧ SameFlags s t ∧ SameRegsBut [linkReg] s t ∧
      SameMemory s t ∧ SameControl s t :=
  ⟨_, h, s.advance.setReg_getReg_self linkReg s.apc, rfl, ⟨rfl, rfl, rfl⟩,
    fun _ hr => s.advance.setReg_getReg_ne s.apc (List.ne_of_not_mem_cons hr), fun _ => rfl, rfl, rfl⟩

end

theorem execJsr_links {off11 : BitVec 11} {s t : State} (h : exec (.jsr off11) s = .next t) : t.getReg linkReg = s.apc := by
  cases h
  exact s.advance.setReg_getReg_self linkReg s.apc

/-! ## The obligations -/

/-- Settles O29: a branch is a jump to the target when it is taken, and to `apc` when it is not. -/
theorem brBranchesOnTheRequestedFlags : Obligations.BrBranchesOnTheRequestedFlags := by
  refine ⟨fun w hw => ⟨_, _, _, _, decode_of_and_rowMask (i := .br false false false 0) hw, toNat_getLsbD_eq_field w 11,
    toNat_getLsbD_eq_field w 10, toNat_getLsbD_eq_field w 9, toNat_slice_eq_field w 0 8⟩, fun n z p off9 s => ?_,
    fun off9 s => ⟨_, execBr_notTaken (branchTaken_noCondition s) off9, rfl⟩,
    fun off9 s hs => ⟨_, execBr_taken (branchTaken_allConditions hs) off9, toNat_add16_word s.apc off9⟩⟩
  rw [← branchTaken_iff]
  cases hb : branchTaken s n z p with
  | true =>
    obtain ⟨t, ht, hpc, hframe⟩ := exists_next_of_jump (i := .br n z p off9) (execBr_taken hb off9)
    exact ⟨t, ht, fun _ => hpc ▸ toNat_add16_word s.apc off9, fun h => absurd rfl h, hframe⟩
  | false =>
    obtain ⟨t, ht, hpc, hframe⟩ := exists_next_of_jump (i := .br n z p off9) (execBr_notTaken hb off9)
    exact ⟨t, ht, fun h => absurd h Bool.false_ne_true, fun _ => hpc, hframe⟩

/-- Settles O30: the target is read as it stands, with no offset. -/
theorem jmpGoesToTheRegister : Obligations.JmpGoesToTheRegister :=
  ⟨fun w hw => ⟨_, decode_of_and_rowMask (i := .jmp 0) hw, val_regOfField_slice_eq_field w 6⟩,
    decode_of_and_rowMask (i := .jmp 0) rfl, fun b _ => exists_next_of_jump (i := .jmp b) rfl⟩

/-- Settles O31: a call of the PC-relative target. -/
theorem jsrLinksAndGoesPcRelative : Obligations.JsrLinksAndGoesPcRelative := by
  refine ⟨fun w hw => ⟨_, decode_of_and_rowMask (i := .jsr 0) hw, toNat_slice_eq_field w 0 10⟩, fun off11 s => ?_⟩
  obtain ⟨t, ht, hlink, hpc, hframe⟩ := exists_next_of_call (i := .jsr off11) (s := s) rfl
  exact ⟨t, ht, hlink, hpc ▸ toNat_add16_word s.apc off11, hframe⟩

/-- Settles O32: a call of the register's value in the state before the link is written. -/
theorem jsrrLinksAndGoesToTheOldRegister : Obligations.JsrrLinksAndGoesToTheOldRegister :=
  ⟨fun w hw => ⟨_, decode_of_and_rowMask (i := .jsrr 0) hw, val_regOfField_slice_eq_field w 6⟩,
    fun b _ => exists_next_of_call (i := .jsrr b) rfl⟩

/-- Settles O33: RET jumps to the link, which JSR set to `apc`. -/
theorem retReturnsToTheWordAfterJsr : Obligations.RetReturnsToTheWordAfterJsr := by
  intro off11 s t u hjsr hu
  have hlink : u.getReg 7 = s.apc := hu.trans (execJsr_links hjsr)
  exact ⟨_, rfl, hlink⟩

end Sys2Proof

/-! # System instructions (`44_system.md`): RTI, TRAP and the reserved opcode -/

namespace Sys2Proof

open Machine

/-! ## The reserved opcode (R172) -/

/-- The low twelve bits of a word, widened again, are the word without its opcode field. -/
theorem setWidth_slice_lowTwelve (w : Word) : (slice w 0 12).setWidth 16 = w &&& 0x0FFF#16 := by
  apply BitVec.eq_of_toNat_eq
  calc ((slice w 0 12).setWidth 16).toNat = w.toNat % 2 ^ 12 := by
        rw [BitVec.toNat_setWidth_of_le (by decide), toNat_slice, pow_zero, Nat.div_one]
    _ = (w &&& 0x0FFF#16).toNat := (Nat.and_two_pow_sub_one_eq_mod w.toNat 12).symm

/-- The word that the fault carries is the instruction word: its opcode field is 0xD and the instruction keeps the rest
(R202). -/
theorem reservedWord_slice {w : Word} (h : w &&& 0xF000#16 = 0xD000#16) : reservedWord (slice w 0 12) = w :=
  calc reservedWord (slice w 0 12) = w &&& 0xF000#16 ||| w &&& 0x0FFF#16 := by
        rw [reservedWord, setWidth_slice_lowTwelve, h]
    _ = w &&& (0xF000#16 ||| 0x0FFF#16) := BitVec.and_or_distrib_left.symm
    _ = w := BitVec.and_allOnes

/-- Under the fail-fast policy the reserved opcode has one outcome, whatever the state (D3). -/
theorem exec_reservedD (low12 : BitVec 12) (s : State) :
    exec (.reservedD low12) s = .fault (.illegalOpcode (reservedWord low12)) := rfl

/-- Under the no-op policy the reserved opcode does what RTI does (D3, R170). -/
theorem execReservedUnder_noOp (low12 : BitVec 12) (s : State) : execReservedUnder .noOp low12 s = exec .rti s := rfl

/-! ## The cycle of a TRAP (R171, R181) -/

/-- A running engine away from the sentinel commits and counts the next-state of the instruction it fetches (R180 to R187). -/
theorem cycle_committed {s t : State} (hrun : s.run = true) (h0 : s.pc ≠ 0#16) (hpc : s.pc.toNat < 32768)
    (h : exec (decode (s.mem.readWord s.pc.toNat)) s = .next t) : cycle s = .next (.committed t.countOne) :=
  (cycle_runs hrun h0 hpc).trans (runWord_next h)

/-! ## The obligations -/

/-- Settles O36: TRAP jumps to the halt sentinel without a write of RUN, so the next cycle's halt check finds both. -/
theorem trapHaltsAtTheFollowingCheck : Obligations.TrapHaltsAtTheFollowingCheck := by
  intro s v hrun h0 hpc hdec
  obtain ⟨t, ht, htpc, hflags, hregs, hmem, htrun, hcount⟩ := exists_next_of_jump (i := .trap v) (s := s) rfl
  have hrun' : t.countOne.run = true := htrun.trans hrun
  exact ⟨t.countOne, t.countOne.setRun false, cycle_committed hrun h0 hpc (hdec ▸ ht), htpc, hrun',
    congrArg (· + 1) hcount, cycle_sentinel hrun' htpc, htpc, rfl, rfl, hflags, hregs, hmem⟩

/-- Settles O34: the row fixes the opcode alone, and RTI jumps to `apc`. -/
theorem rtiOnlyAdvancesThePc : Obligations.RtiOnlyAdvancesThePc :=
  ⟨fun _ hw => decode_of_and_rowMask (i := .rti) hw, fun _ => exists_next_of_jump (i := .rti) rfl⟩

/-- Settles O35: TRAP is a jump to the halt sentinel, whatever its vector. -/
theorem trapOnlyZeroesThePc : Obligations.TrapOnlyZeroesThePc :=
  ⟨fun w hw => ⟨_, decode_of_and_rowMask (i := .trap 0) hw, toNat_slice_eq_field w 0 7⟩,
    fun v _ => exists_next_of_jump (i := .trap v) rfl⟩

/-- Settles O37: the decoder keeps the word's low twelve bits, and the fault puts the opcode field back above them. -/
theorem reservedOpcodeFaults : Obligations.ReservedOpcodeFaults := by
  refine fun w hw => ⟨slice w 0 12, decode_of_and_rowMask (i := .reservedD 0) hw, fun s => ?_⟩
  rw [exec_reservedD, reservedWord_slice hw]

/-- Settles O38: with the switch at the no-op, the reserved opcode is RTI. -/
theorem reservedOpcodeUnderTheNoOpPolicy : Obligations.ReservedOpcodeUnderTheNoOpPolicy := by
  intro low12 s
  rw [execReservedUnder_noOp]
  exact exists_next_of_jump (i := .rti) rfl

end Sys2Proof

/-! # The cycle driver (`45_cycle_driver.md`): what faults a cycle, what ICOUNT counts, and how a run ends -/

namespace Sys2Proof

open Machine

/-! ## Accesses decide whether an instruction completes (R51, R207) -/

/-- The outcome is the one the accesses decide: a next state when all are in range, else the fault of the first that is not. -/
def DecidedBy (as : List Access) (o : Host.Outcome State Fault Refusal) : Prop :=
  (firstBad as = none ∧ ∃ t, o = .next t) ∨ ∃ k a, firstBad as = some (k, a) ∧ o = .fault (.outOfBounds a k)

theorem firstBad_cons_inRange {b : Access} (h : b.2.toNat < 32768) (as : List Access) :
    firstBad (b :: as) = firstBad as := if_pos h

theorem firstBad_cons_outOfRange {b : Access} (h : 32768 ≤ b.2.toNat) (as : List Access) :
    firstBad (b :: as) = some b := if_neg (Nat.not_lt.2 h)

theorem DecidedBy.next (t : State) : DecidedBy [] (.next t) := .inl ⟨rfl, t, rfl⟩

/-- A read is checked before what follows it. -/
theorem DecidedBy.withRead {k : AccessKind} {a : Word} {as : List Access} {s : State}
    {next : Word → Host.Outcome State Fault Refusal} (h : DecidedBy as (next (s.mem.readWord a.toNat))) :
    DecidedBy ((k, a) :: as) (Machine.withRead (s.memRead k a) next) := by
  obtain ⟨ha, hr⟩ | ⟨ha, hr⟩ := memRead_cases s k a <;> rw [hr, DecidedBy]
  · rw [firstBad_cons_inRange ha]
    exact h
  · exact .inr ⟨k, a, firstBad_cons_outOfRange ha as, rfl⟩

theorem DecidedBy.finishWrite (t : State) (a v : Word) :
    DecidedBy [(.write, a)] (Machine.finishWrite (t.memWrite a v)) := by
  obtain ⟨ha, hw⟩ | ⟨ha, hw⟩ := memWrite_cases t a v <;> rw [hw]
  · exact .inl ⟨firstBad_cons_inRange ha [], _, rfl⟩
  · exact .inr ⟨.write, a, firstBad_cons_outOfRange ha [], rfl⟩

/-- Every instruction but the reserved one does what its row of the table of R52 decides. -/
theorem exec_decidedBy_accesses {i : Instr} (hi : i.opcode ≠ .reserved) (s : State) :
    DecidedBy (accesses i s) (exec i s) := by
  cases i with
  | reservedD low => exact absurd rfl hi
  | br n z p off =>
    change DecidedBy [] (execBr n z p off s)
    cases h : branchTaken s n z p with
    | true => rw [execBr_taken h]; exact .next _
    | false => rw [execBr_notTaken h]; exact .next _
  | ld dr off => exact .withRead (.next _)
  | ldr dr b off => exact .withRead (.next _)
  | ldi dr off => exact .withRead (.withRead (.next _))
  | st sr off => exact .finishWrite _ _ _
  | str sr b off => exact .finishWrite _ _ _
  | sti sr off => exact .withRead (.finishWrite _ _ _)
  | _ => exact .next _

/-- An instruction with an access out of range faults with the first such access. -/
theorem exec_of_firstBad {i : Instr} {s : State} {k : AccessKind} {a : Word} (h : firstBad (accesses i s) = some (k, a)) :
    exec i s = .fault (.outOfBounds a k) := by
  have hi : i.opcode ≠ .reserved := by
    intro hres
    cases i with
    | reservedD low => cases h
    | _ => cases hres
  obtain ⟨hnone, -⟩ | ⟨k', a', hbad, he⟩ := exec_decidedBy_accesses hi s
  · rw [hnone] at h; cases h
  · rw [hbad] at h; cases h; exact he

/-! ## The cause of a fault (R207) -/

theorem decode_of_field_reserved {w : Word} (h : field w 15 12 = 0xD) : decode w = .reservedD (slice w 0 12) := by
  have hop : (decodeFields w).opcode = 0xD#4 := BitVec.eq_of_toNat_eq ((toNat_slice_eq_field w 12 3).trans h)
  simp only [decode, selectInstr, hop, lowTwelve_decodeFields]
  rfl

/-- A word of opcode 0xD faults with itself (R172, R202). -/
theorem exec_of_field_reserved {w : Word} (h : field w 15 12 = 0xD) (s : State) :
    exec (decode w) s = .fault (.illegalOpcode w) := by
  have hdec := decode_of_field_reserved h
  have hrow := and_rowMask_decode w
  rw [hdec] at hrow
  rw [hdec, exec_reservedD, reservedWord_slice hrow]

/-- Everything the instruction of a word can do, with the reason of each fault. -/
theorem exec_decode_cases (w : Word) (s : State) :
    (∃ t, exec (decode w) s = .next t) ∨
    (field w 15 12 = 0xD ∧ exec (decode w) s = .fault (.illegalOpcode w)) ∨
    (∃ k a, firstBad (accesses (decode w) s) = some (k, a) ∧ exec (decode w) s = .fault (.outOfBounds a k)) := by
  by_cases hres : (decode w).opcode = .reserved
  · have hD := field_opcode_of_reserved hres
    exact .inr (.inl ⟨hD, exec_of_field_reserved hD s⟩)
  · obtain ⟨-, hnext⟩ | hbad := exec_decidedBy_accesses hres s
    · exact .inl hnext
    · exact .inr (.inr hbad)

/-- A cycle that executes commits, or faults with a cause that stands in its state. -/
theorem cycle_commits_or_faults {s : State} (hrun : s.run = true) (h0 : s.pc ≠ 0#16) :
    (∃ t, cycle s = .next (.committed t)) ∨ ∃ f, FaultCause s f ∧ cycle s = .fault f := by
  rcases Nat.lt_or_ge s.pc.toNat 32768 with hpc | hpc
  · rw [cycle_runs hrun h0 hpc]
    obtain ⟨t, ht⟩ | ⟨hD, hf⟩ | ⟨k, a, hbad, hf⟩ := exec_decode_cases (s.mem.readWord s.pc.toNat) s
    · exact .inl ⟨_, runWord_next ht⟩
    · exact .inr ⟨_, .inr (.inl ⟨hpc, hD, rfl⟩), runWord_fault hf⟩
    · exact .inr ⟨_, .inr (.inr ⟨hpc, k, a, hbad, rfl⟩), runWord_fault hf⟩
  · exact .inr ⟨_, .inl ⟨hpc, rfl⟩, cycle_fetchOutOfRange hrun hpc⟩

theorem cycle_of_faultCause {s : State} {f : Fault} (hrun : s.run = true) (h0 : s.pc ≠ 0#16) (h : FaultCause s f) :
    cycle s = .fault f := by
  obtain ⟨hpc, rfl⟩ | ⟨hpc, hD, rfl⟩ | ⟨hpc, k, a, hbad, rfl⟩ := h
  · exact cycle_fetchOutOfRange hrun hpc
  · rw [cycle_runs hrun h0 hpc, runWord_fault (exec_of_field_reserved hD s)]
  · rw [cycle_runs hrun h0 hpc, runWord_fault (exec_of_firstBad hbad)]

/-! ## The outcomes of a cycle, read backwards -/

/-- Every way a cycle can end, with what it says of the state it starts from (R188). -/
theorem cycle_outcomes (s : State) :
    (s.run = false ∧ cycle s = .next (.halted s)) ∨
    (s.run = true ∧ s.pc = 0#16 ∧ cycle s = .next (.halted (s.setRun false))) ∨
    (s.run = true ∧ s.pc ≠ 0#16 ∧ ∃ t, cycle s = .next (.committed t)) ∨
    (s.run = true ∧ s.pc ≠ 0#16 ∧ ∃ f, FaultCause s f ∧ cycle s = .fault f) := by
  rcases Bool.eq_false_or_eq_true s.run with hrun | hrun
  · by_cases h0 : s.pc = 0#16
    · exact .inr (.inl ⟨hrun, h0, cycle_sentinel hrun h0⟩)
    · obtain hc | hf := cycle_commits_or_faults hrun h0
      · exact .inr (.inr (.inl ⟨hrun, h0, hc⟩))
      · exact .inr (.inr (.inr ⟨hrun, h0, hf⟩))
  · exact .inl ⟨hrun, cycle_stopped hrun⟩

theorem cycle_ne_refused (s : State) (r : Refusal) : cycle s ≠ .refused r := by
  obtain ⟨-, hc⟩ | ⟨-, -, hc⟩ | ⟨-, -, t, hc⟩ | ⟨-, -, f, -, hc⟩ := cycle_outcomes s <;> rw [hc] <;> nofun

theorem cycle_fault_inv {s : State} {f : Fault} (h : cycle s = .fault f) : s.pc ≠ 0#16 ∧ FaultCause s f := by
  obtain ⟨-, hc⟩ | ⟨-, -, hc⟩ | ⟨-, -, t, hc⟩ | ⟨-, h0, f', hf, hc⟩ := cycle_outcomes s <;> rw [hc] at h <;> cases h
  exact ⟨h0, hf⟩

theorem cycle_committed_inv {s t : State} (h : cycle s = .next (.committed t)) : s.run = true ∧ s.pc ≠ 0#16 := by
  obtain ⟨-, hc⟩ | ⟨-, -, hc⟩ | ⟨hrun, h0, t', hc⟩ | ⟨-, -, f, -, hc⟩ := cycle_outcomes s <;> rw [hc] at h <;> cases h
  exact ⟨hrun, h0⟩

/-- A running engine halts at the sentinel only, and with RUN cleared (R181). -/
theorem cycle_halted_inv {s t : State} (hrun : s.run = true) (h : cycle s = .next (.halted t)) :
    s.pc = 0#16 ∧ t = s.setRun false := by
  obtain ⟨hstop, -⟩ | ⟨-, h0, hc⟩ | ⟨-, -, t', hc⟩ | ⟨-, -, f, -, hc⟩ := cycle_outcomes s
  · rw [hrun] at hstop; cases hstop
  · rw [hc] at h; cases h; exact ⟨h0, rfl⟩
  · rw [hc] at h; cases h
  · rw [hc] at h; cases h

theorem step_of_cycle_fault {s : State} {f : Fault} (h : cycle s = .fault f) : step s = .fault f := by
  simp [step, h]

/-- A committed cycle leaves RUN set. -/
theorem run_of_cycle_committed {s t : State} (h : cycle s = .next (.committed t)) : t.run = true :=
  (step_run_iff (step_of_cycle_next h)).2 (cycle_committed_inv h)

/-- A step that leaves RUN set committed its cycle (log 2). -/
theorem cycle_committed_of_step {s t : State} (h : step s = .next t) (hrun : t.run = true) :
    cycle s = .next (.committed t) := by
  obtain ⟨hs, h0⟩ := (step_run_iff h).1 hrun
  obtain ⟨t', hc⟩ | ⟨f, -, hc⟩ := cycle_commits_or_faults hs h0
  · have ht : step s = .next t' := step_of_cycle_next hc
    rw [h] at ht; cases ht; exact hc
  · rw [step_of_cycle_fault hc] at h; cases h

/-! ## ICOUNT (R187) -/

theorem step_counts {s u : State} (hrun : s.run = true) (h0 : s.pc ≠ 0#16) (h : step s = .next u) :
    u.icount = s.icount + 1 := by
  obtain ⟨hstop, -⟩ | ⟨-, hpc, -⟩ | ⟨-, -, -, t, ht, rfl⟩ := step_next_cases h
  · rw [hrun] at hstop; cases hstop
  · exact absurd hpc h0
  · exact congrArg (· + 1) (exec_sameControl ht).2

theorem step_keeps_icount {s u : State} (hs : s.run = false ∨ s.pc = 0#16) (h : step s = .next u) :
    u.icount = s.icount := by
  obtain ⟨-, rfl⟩ | ⟨-, -, rfl⟩ | ⟨hrun, h0, -⟩ := step_next_cases h
  · rfl
  · rfl
  · simp [hrun, h0] at hs

/-! ## Steps of a running engine -/

theorem steps_succ_refused {k : Nat} {s : State} {r : Refusal} (h : step s = .refused r) :
    steps (k + 1) s = .refused r := by
  have h : core.step s = .refused r := h
  simp only [steps, Host.Core.run, h]
  rfl

theorem steps_succ_next_inv {k : Nat} {s t : State} (h : steps (k + 1) s = .next t) :
    ∃ u, step s = .next u ∧ steps k u = .next t := by
  cases hs : step s with
  | next u => exact ⟨u, rfl, steps_succ_next hs ▸ h⟩
  | fault f => rw [steps_succ_fault hs] at h; cases h
  | refused r => rw [steps_succ_refused hs] at h; cases h

theorem steps_add_of_next {k : Nat} {s t : State} (h : steps k s = .next t) (m : Nat) :
    steps (k + m) s = steps m t := by
  induction k generalizing s with
  | zero => cases h; rw [Nat.zero_add]
  | succ k ih =>
    obtain ⟨u, hu, ht⟩ := steps_succ_next_inv h
    rw [Nat.succ_add, steps_succ_next hu, ih ht]

/-- Steps that end with RUN set were all committed, and ICOUNT has counted them. -/
theorem steps_run_inv {k : Nat} {s t : State} (h : steps k s = .next t) (hrun : t.run = true) :
    s.run = true ∧ t.icount = s.icount + k := by
  induction k generalizing s with
  | zero => cases h; exact ⟨hrun, rfl⟩
  | succ k ih =>
    obtain ⟨u, hu, ht⟩ := steps_succ_next_inv h
    obtain ⟨hurun, hcount⟩ := ih ht
    obtain ⟨hs, h0⟩ := (step_run_iff hu).1 hurun
    have hone := step_counts hs h0 hu
    exact ⟨hs, by omega⟩

/-- A run goes through the states that steps with RUN set go through. -/
theorem hostRun_add_of_steps {k : Nat} {s t : State} (h : steps k s = .next t) (hrun : t.run = true) (m : Nat) :
    hostRun (k + m) s = hostRun m t := by
  induction k generalizing s with
  | zero => cases h; rw [Nat.zero_add]
  | succ k ih =>
    obtain ⟨u, hu, ht⟩ := steps_succ_next_inv h
    have hc := cycle_committed_of_step hu (steps_run_inv ht hrun).1
    rw [Nat.succ_add, hostRun_succ_committed hc, ih ht]

/-! ## How a run ends (R189, R191) -/

/-- How a run that has come to the state u ends: by its bound, or as the cycle of u says. -/
inductive EndsAt (u : State) : State → RunEnd → Prop
  | ran : EndsAt u u .ran
  | halted {t : State} (cycle_eq : cycle u = .next (.halted t)) : EndsAt u t .halted
  | fault {f : Fault} (cycle_eq : cycle u = .fault f) : EndsAt u u (.fault f)

/-- Every run goes some steps, as many as its bound if it ends by that, and ends where they lead. -/
theorem hostRun_inv {n : Nat} {s t : State} {e : RunEnd} (h : hostRun n s = (t, e)) :
    ∃ j u, steps j s = .next u ∧ (s.run = true → u.run = true) ∧ (e = .ran → j = n) ∧ EndsAt u t e := by
  induction n generalizing s with
  | zero => cases h; exact ⟨0, _, rfl, id, fun _ => rfl, .ran⟩
  | succ n ih =>
    cases hc : cycle s with
    | next c =>
      cases c with
      | committed v =>
        rw [hostRun_succ_committed hc] at h
        obtain ⟨j, u, hsteps, hrun, hran, hend⟩ := ih h
        exact ⟨j + 1, u, (steps_succ_next (step_of_cycle_next hc)).trans hsteps,
          fun _ => hrun (run_of_cycle_committed hc), fun he => congrArg (· + 1) (hran he), hend⟩
      | halted v => rw [hostRun_succ_halted hc] at h; cases h; exact ⟨0, _, rfl, id, nofun, .halted hc⟩
    | fault f => rw [hostRun_succ_fault hc] at h; cases h; exact ⟨0, _, rfl, id, nofun, .fault hc⟩
    | refused r => exact absurd hc (cycle_ne_refused s r)

/-- A run that ended otherwise than by its bound ends in the same way under any larger bound. -/
theorem hostRun_add_of_end {n : Nat} {s t : State} {e : RunEnd} (h : hostRun n s = (t, e)) (he : e ≠ .ran) (m : Nat) :
    hostRun (n + m) s = (t, e) := by
  induction n generalizing s with
  | zero => cases h; exact absurd rfl he
  | succ n ih =>
    rw [Nat.succ_add]
    cases hc : cycle s with
    | next c =>
      cases c with
      | committed v =>
        rw [hostRun_succ_committed hc] at h ⊢
        exact ih h
      | halted v => rw [hostRun_succ_halted hc] at h ⊢; exact h
    | fault f => rw [hostRun_succ_fault hc] at h ⊢; exact h
    | refused r => exact absurd hc (cycle_ne_refused s r)

theorem goesTo_unique {s t t' : State} {e e' : RunEnd} (h : GoesTo s t e) (h' : GoesTo s t' e') : t = t' ∧ e = e' := by
  obtain ⟨n, hn, he⟩ := h
  obtain ⟨m, hm, he'⟩ := h'
  have hnm := hostRun_add_of_end hn he m
  rw [Nat.add_comm, hostRun_add_of_end hm he' n] at hnm
  cases hnm
  exact ⟨rfl, rfl⟩

theorem not_goesTo_refused (s t : State) (r : Refusal) : ¬ GoesTo s t (.refused r) := by
  rintro ⟨n, hn, -⟩
  obtain ⟨j, u, -, -, -, hend⟩ := hostRun_inv hn
  cases hend

theorem endsNormally_inv {s t : State} (hrun : s.run = true) (h : EndsNormally s t) :
    ∃ j u, steps j s = .next u ∧ u.run = true ∧ u.pc = 0#16 ∧ t = u.setRun false := by
  obtain ⟨n, hn, -⟩ := h
  obtain ⟨j, u, hsteps, hu, -, hend⟩ := hostRun_inv hn
  cases hend with
  | halted hc => exact ⟨j, u, hsteps, hu hrun, cycle_halted_inv (hu hrun) hc⟩

theorem endsAbnormally_inv {s t : State} {f : Fault} (hrun : s.run = true) (h : EndsAbnormally s t f) :
    ∃ j, steps j s = .next t ∧ t.run = true ∧ cycle t = .fault f := by
  obtain ⟨n, hn, -⟩ := h
  obtain ⟨j, u, hsteps, hu, -, hend⟩ := hostRun_inv hn
  cases hend with
  | fault hc => exact ⟨j, hsteps, hu hrun, hc⟩

theorem endsNormally_of_steps {s t : State} {k : Nat} (h : steps k s = .next t) (hrun : t.run = true)
    (h0 : t.pc = 0#16) : EndsNormally s (t.setRun false) :=
  ⟨k + 1, (hostRun_add_of_steps h hrun 1).trans (hostRun_succ_halted (cycle_sentinel hrun h0)), nofun⟩

theorem endsAbnormally_of_steps {s t : State} {f : Fault} {k : Nat} (h : steps k s = .next t) (hrun : t.run = true)
    (hc : cycle t = .fault f) : EndsAbnormally s t f :=
  ⟨k + 1, (hostRun_add_of_steps h hrun 1).trans (hostRun_succ_fault hc), nofun⟩

/-! ## The steps after a run's end -/

/-- Setting RUN to what it is changes nothing. -/
theorem setRun_of_run_eq {s : State} {b : Bool} (h : s.run = b) : s.setRun b = s := by
  subst h
  rfl

/-- Past the sentinel, any number of steps leaves the engine stopped there (R181; D10). -/
theorem steps_past_halt {s u : State} {j k : Nat} (h : steps j s = .next u) (hrun : u.run = true) (h0 : u.pc = 0#16)
    (hk : j < k) : steps k s = .next (u.setRun false) := by
  obtain ⟨m, rfl⟩ := Nat.exists_eq_add_of_lt hk
  have hstop : step (u.setRun false) = .next (u.setRun false) := step_stopped rfl
  rw [Nat.add_assoc, steps_add_of_next h, steps_succ_next (step_sentinel hrun h0), steps_of_fixed hstop]

/-- Past a fault, any number of steps is that fault (R203). -/
theorem steps_past_fault {s t : State} {f : Fault} {j k : Nat} (h : steps j s = .next t) (hc : cycle t = .fault f)
    (hk : j < k) : steps k s = .fault f := by
  obtain ⟨m, rfl⟩ := Nat.exists_eq_add_of_lt hk
  rw [Nat.add_assoc, steps_add_of_next h, steps_succ_fault (step_of_cycle_fault hc)]

/-! ## The obligations -/

/-- Settles O16: the sum of two words is reduced modulo 65536. -/
theorem advancedPcIsTheNextWord : Obligations.AdvancedPcIsTheNextWord := by
  intro s
  have hsum : s.apc.toNat = (s.pc.toNat + 1) % 65536 := by simp
  constructor <;> omega

/-- Settles O39: the fetch gives the word at the PC, and the driver adds the count. -/
theorem stepRunsTheDecodedInstruction : Obligations.StepRunsTheDecodedInstruction := by
  rintro s i hrun h0 hpc rfl
  exact step_of_fetch hrun h0 (memRead_ok hpc)

/-- Settles O42: no instruction writes ICOUNT, and the driver counts what it commits. -/
theorem instructionCounterCountsCommittedCycles : Obligations.InstructionCounterCountsCommittedCycles :=
  fun _ _ h => ⟨fun ⟨hrun, h0⟩ => step_counts hrun h0 h, fun hs => step_keeps_icount hs h⟩

/-- Settles O52: a run commits some steps, then ends by its bound or as the cycle it has come to says. -/
theorem runsEndInOneOfThreeWays : Obligations.RunsEndInOneOfThreeWays := by
  intro n s t e hrun h
  obtain ⟨j, u, hsteps, hu, hran, hend⟩ := hostRun_inv h
  have hurun := hu hrun
  cases hend with
  | ran =>
    obtain rfl := hran rfl
    exact .inr (.inr ⟨rfl, hurun, (steps_run_inv hsteps hurun).2⟩)
  | halted hc =>
    obtain ⟨h0, rfl⟩ := cycle_halted_inv hurun hc
    exact .inr (.inl ⟨rfl, rfl, h0, step_stopped rfl⟩)
  | fault hc => exact .inl ⟨_, rfl, hurun, step_of_cycle_fault hc⟩

/-- Settles O53: a larger bound changes no end, and a running engine's run is its committed steps, which ICOUNT counts, with
the halt or the fault of the state they lead to. -/
theorem theEndOfARunIsUnique : Obligations.TheEndOfARunIsUnique := by
  refine ⟨fun _ _ _ _ _ => goesTo_unique, not_goesTo_refused, fun s t hrun h => ?_, fun s t f hrun h => ?_,
    fun s t k h hrun => ⟨endsNormally_of_steps h hrun, fun f h0 hf =>
      endsAbnormally_of_steps h hrun (cycle_of_faultCause hrun h0 hf)⟩⟩
  · obtain ⟨j, u, hsteps, hu, h0, rfl⟩ := endsNormally_inv hrun h
    have hcount : (u.setRun false).icount = s.icount + j := (steps_run_inv hsteps hu).2
    have hback : (u.setRun false).setRun true = u := setRun_of_run_eq hu
    rw [hcount, Nat.add_sub_cancel_left, hback]
    exact ⟨h0, rfl, Nat.le_add_right _ _, hsteps, fun k => steps_past_halt hsteps hu h0⟩
  · obtain ⟨j, hsteps, ht, hc⟩ := endsAbnormally_inv hrun h
    obtain ⟨h0, hcause⟩ := cycle_fault_inv hc
    rw [(steps_run_inv hsteps ht).2, Nat.add_sub_cancel_left]
    exact ⟨h0, ht, Nat.le_add_right _ _, hcause, hsteps, fun k => steps_past_fault hsteps hc⟩

end Sys2Proof

/-! # Exceptions (`60_exceptions.md`): the outcome of a cycle, in the order of its checks -/

namespace Sys2Proof

open Machine

/-- A fetchable word that is not of opcode 0xD, with every access in range, gives no fault a cause (R207). -/
theorem not_faultCause {s : State} {f : Fault} (hpc : s.pc.toNat < 32768)
    (hD : field (s.mem.readWord s.pc.toNat) 15 12 ≠ 0xD)
    (hbad : firstBad (accesses (decode (s.mem.readWord s.pc.toNat)) s) = none) : ¬ FaultCause s f := by
  rintro (⟨hfetch, -⟩ | ⟨-, hopcode, -⟩ | ⟨-, k, a, haccess, -⟩)
  · exact Nat.not_le.2 hpc hfetch
  · exact hD hopcode
  · rw [hbad] at haccess; cases haccess

/-! ## The obligation -/

/-- Settles O40: each check that is met ends the cycle, and a cycle that executes with no cause of a fault commits. -/
theorem outcomePriority : Obligations.OutcomePriority := by
  rintro s i rfl
  refine ⟨cycle_stopped, cycle_sentinel, cycle_fetchOutOfRange, fun hrun h0 hpc => ⟨fun hD => ?_, fun k a hbad => ?_,
    fun hD hbad => ?_⟩⟩
  · exact cycle_of_faultCause hrun h0 (.inr (.inl ⟨hpc, hD, rfl⟩))
  · exact cycle_of_faultCause hrun h0 (.inr (.inr ⟨hpc, k, a, hbad, rfl⟩))
  · obtain hcommits | ⟨f, hcause, -⟩ := cycle_commits_or_faults hrun h0
    · exact hcommits
    · exact absurd hcause (not_faultCause hpc hD hbad)

end Sys2Proof

/-! # Reset and launch (`70_reset_and_hazards.md`): the power-on state, a load, finalisation, the launch of one image -/

namespace Sys2Proof

open Machine

/-! ## The power-on state (R230) -/

theorem reset_getReg (r : RegNum) : State.reset.getReg r = 0#16 := by
  simp [State.getReg, State.reset, Config.resetReg]

/-- A memory that lists no cell reads as 0 at every address (R34). -/
theorem readWord_nil (a : Nat) : Memory.readWord [] a = 0#16 := by
  simp [Memory.readWord, Memory.readByte, Config.unlistedByte]

theorem not_oneHot_reset : ¬ OneHot State.reset := by decide

/-! ## A load (R232 to R236) -/

@[simp] theorem loadPc_zero (base : Word) : loadPc 0#16 base = base := rfl

theorem loadPc_of_ne_zero {pc : Word} (h : pc ≠ 0#16) (base : Word) : loadPc pc base = pc := if_neg h

theorem load_of_fits {im : Image} (h : im.base.toNat + im.words.length ≤ 32768) (s : State) :
    load im s = .ok ((s.setMem (s.mem.writeImage im.base.toNat im.words)).setPc (loadPc s.pc im.base)) :=
  if_pos (decide_eq_true h)

theorem load_of_exceeds {im : Image} (h : 32768 < im.base.toNat + im.words.length) (s : State) :
    load im s = .error (.exceedsCapacity im.base im.words.length) :=
  if_neg fun hfits => Nat.not_le.2 h (of_decide_eq_true hfits)

/-! ## Finalisation (R235) -/

section

variable (loaded : Bool) (s : State)

@[simp] theorem finalise_pc : (finalise loaded s).pc = s.pc := rfl
@[simp] theorem finalise_n : (finalise loaded s).n = s.n := rfl
@[simp] theorem finalise_z : (finalise loaded s).z = true := rfl
@[simp] theorem finalise_p : (finalise loaded s).p = s.p := rfl
@[simp] theorem finalise_mem : (finalise loaded s).mem = s.mem := rfl
@[simp] theorem finalise_run : (finalise loaded s).run = (s.run || loaded) := rfl
@[simp] theorem finalise_icount : (finalise loaded s).icount = s.icount := rfl
@[simp] theorem finalise_getReg (r : RegNum) : (finalise loaded s).getReg r = s.getReg r := rfl

end

/-- Finalisation leaves Z alone set where N and P are clear, as at power-on and after loads (R235, D12). -/
theorem finalise_oneHot {s : State} (hn : s.n = false) (hp : s.p = false) (loaded : Bool) :
    OneHot (finalise loaded s) := by
  simp [OneHot, hn, hp]

/-! ## The launch of one image (R237) -/

/-- The launch state of one image of any base, base 0 too (D24): the load sets the power-on PC, 0, to the base. -/
theorem launch_singleton {im : Image} (h : im.base.toNat + im.words.length ≤ 32768) :
    launch [im] = .ok (finalise true
      ((State.reset.setMem (State.reset.mem.writeImage im.base.toNat im.words)).setPc im.base)) := by
  have hpc : loadPc State.reset.pc im.base = im.base := loadPc_zero im.base
  simp [launch, loadAll, load_of_fits h, hpc]

/-! ## The obligations -/

/-- Settles O3: the words read back by the laws of `writeImage`, and a load changes nothing but memory and the PC. -/
theorem loadPlacesTheImage : Obligations.LoadPlacesTheImage := by
  intro im s
  refine ⟨fun hexceeds => load_of_exceeds hexceeds s, fun hfits hwf => ⟨_, load_of_fits hfits s, ?_⟩⟩
  have hwords := Memory.readWord_writeImage im.words hwf hfits
  have hothers := Memory.readWord_writeImage_ne im.words s.mem im.base.toNat
  have hcanonical := Memory.writeImage_wf im.words hwf hfits
  have hpcSet (h0 : s.pc = 0#16) : loadPc s.pc im.base = im.base := by rw [h0, loadPc_zero]
  have hpcKept (h0 : s.pc ≠ 0#16) : loadPc s.pc im.base = s.pc := loadPc_of_ne_zero h0 im.base
  exact ⟨hwords, hothers, hcanonical, hpcSet, hpcKept, fun _ => rfl, ⟨rfl, rfl, rfl⟩, rfl, rfl⟩

/-- Settles O5: the image's words stand over the empty power-on memory, and the load and finalisation write the rest. -/
theorem launchStateOfOneImage : Obligations.LaunchStateOfOneImage := by
  intro base words _ hfits
  refine ⟨_, launch_singleton hfits, reset_getReg, rfl, rfl, rfl, rfl, ?_, fun a ha => ?_, rfl, rfl⟩
  · exact Memory.readWord_writeImage words Memory.wf_nil hfits
  · exact (Memory.readWord_writeImage_ne words [] _ a ha).trans (readWord_nil a)

/-- Settles O6: RUN is set and the PC is at the halt sentinel, so the halt check stops the first cycle. -/
theorem launchAtBaseZeroHaltsAtOnce : Obligations.LaunchAtBaseZeroHaltsAtOnce := by
  intro words hlength
  have hfits : (0#16).toNat + words.length ≤ 32768 := by simpa using hlength
  exact ⟨_, _, launch_singleton (im := ⟨0#16, words⟩) hfits, cycle_sentinel rfl rfl, rfl, rfl, reset_getReg⟩

/-- Settles O1: the fields are the power-on constants, and the halt check leaves a stopped engine as it is. -/
theorem powerOnStateIsZeroAndStopped : Obligations.PowerOnStateIsZeroAndStopped :=
  ⟨reset_getReg, rfl, rfl, rfl, rfl, readWord_nil, rfl, rfl, step_stopped rfl⟩

/-- Settles O2: the empty list is canonical, and no flag is set. -/
theorem powerOnMemoryIsCanonical : Obligations.PowerOnMemoryIsCanonical := ⟨Memory.wf_nil, not_oneHot_reset⟩

/-- Settles O4: finalisation writes Z and RUN only. -/
theorem finalisationForcesZAndSetsRun : Obligations.FinalisationForcesZAndSetsRun := by
  intro s loaded hn hp hrun
  have hloaded : (finalise loaded s).run = loaded := by rw [finalise_run, hrun, Bool.false_or]
  exact ⟨finalise_oneHot hn hp loaded, finalise_z loaded s, hloaded, finalise_pc loaded s, finalise_mem loaded s,
    finalise_icount loaded s, finalise_getReg loaded s⟩

end Sys2Proof
